-- ==== Sys2Proof/Word.lean ====
section
/-! DEFINITION. The scalar and sequence types of 10_state.md (R21 to R24). A Pos (R25), a bit position or range bound, is a
mathematical integer, negative values included: it is Lean's `Int`. -/

namespace Sys2Proof

/-- R21: an 8-bit unsigned value. `BYTE_W` of R5 is fixed at 8, and is the width of this type. Bit 0 is the least
significant (R6). -/
abbrev Byte := BitVec 8

/-- R22: one of zero (`false`) and one (`true`). -/
abbrev Bit := Bool

/-- R23: a finite sequence of Bits. Position 0 corresponds to bit 0 of a Byte. -/
abbrev BitSeq := List Bit

/-- R24: a sequence of Bytes of any length. Position 0 is the first byte on the wire (R41). -/
abbrev ByteSeq := List Byte

end Sys2Proof
end

