-- ==== Sys2Proof/Syntax.lean ====
section
/-! DEFINITION. The syntax of the interface: fields, requests, the fourteen instructions, the value types of 10_state.md, and
responses (30_encoding.md). -/

namespace Sys2Proof

/-! ## Fields as they travel (R65, R66, R67) -/

/-- R66: an Identifier field. Every value of `tag` can arrive; 3..255 are reserved. -/
structure IdField where
  tag : Byte
  b0 : Byte
  b1 : Byte
  b2 : Byte
deriving DecidableEq, Repr

/-- R67: a Message field. Every value of `tag` can arrive; 3..255 are reserved. -/
structure MsgField where
  tag : Byte
  dc : Byte
  s1 : Byte
  s2 : Byte
  id : IdField
  payload : ByteSeq
deriving DecidableEq, Repr

/-- One field of a request or of a response. A Bool and a nybble travel as a Byte (R26, R27); a BitSeq's elements travel as
Bytes (R65). -/
inductive Field where
  | byte (b : Byte)
  | pos (p : Int)
  | bits (xs : List Byte)
  | seq (xs : ByteSeq)
  | ident (f : IdField)
  | msg (f : MsgField)
  /-- A natural number: `consumed` of `RES_IDN` (R64). It is in no operand format. -/
  | nat (n : Nat)
  /-- A value that the physical `WIRE_LAYOUT` could not carry (R62, R203). It is in no format. -/
  | uncarried
deriving DecidableEq, Repr

/-- R60: a request is an 8-bit opcode and a list of operand fields. -/
structure Request where
  op : Byte
  operands : List Field
deriving DecidableEq, Repr

/-- The types a field of a format can have (R63, R64). -/
inductive FieldKind where
  | byte | pos | bits | seq | ident | msg | nat
deriving DecidableEq, Repr

/-- R63: the operand formats. -/
inductive Format where
  | bp | b | hl | brv | bits | seq | id | msg
deriving DecidableEq, Repr

/-- R64: the result formats. -/
inductive ResFormat where
  | bool | b | nyb | bits | seq | idn | msg
deriving DecidableEq, Repr

/-- R68: the fourteen operations. -/
inductive Op where
  | bitGet | bitSet | bitClear | nybbleSplit | nybbleJoin | bitRangeReplace | bitsOfByte | byteOfBits
  | pack7bit | unpack7bit
  | mfgIdPack | mfgIdUnpack
  | sysexParse | sysexEncode
deriving DecidableEq, Repr

/-- One instruction: an operation of R68 with the operand fields of its format (R63), as they arrived. -/
inductive Instr where
  | bitGet (b : Byte) (p : Int)
  | bitSet (b : Byte) (p : Int)
  | bitClear (b : Byte) (p : Int)
  | nybbleSplit (b : Byte)
  | nybbleJoin (high low : Byte)
  | bitRangeReplace (b : Byte) (lo hi : Int) (v : Byte)
  | bitsOfByte (b : Byte)
  | byteOfBits (bits : List Byte)
  | pack7bit (s : ByteSeq)
  | unpack7bit (s : ByteSeq)
  | mfgIdPack (id : IdField)
  | mfgIdUnpack (s : ByteSeq)
  | sysexParse (s : ByteSeq)
  | sysexEncode (m : MsgField)
deriving DecidableEq, Repr

/-! ## Values (10_state.md R26 to R31) -/

/-- R28, with the equality of R29: two identifiers are equal iff they are the same form with the same bytes. -/
inductive Identifier where
  | standard (b : Byte)
  | extended (b0 b1 b2 : Byte)
  | development
deriving DecidableEq, Repr

/-- R30. -/
inductive Kind where
  | nonRealTime
  | realTime
deriving DecidableEq, Repr

/-- R30: the Universal Header. -/
structure Header where
  deviceChannel : Byte
  subId1 : Byte
  subId2 : Byte
deriving DecidableEq, Repr

/-- R31, with its equality: same form and equal fields. -/
inductive Message where
  | universal (kind : Kind) (header : Header) (payload : ByteSeq)
  | manufacturerSpecific (id : Identifier) (payload : ByteSeq)
deriving DecidableEq, Repr

/-- What an operation returns, by result format (R64). -/
inductive Result where
  | bool (r : Bool)
  | byte (r : Byte)
  | nyb (high low : Byte)
  | bits (bs : BitSeq)
  | seq (r : ByteSeq)
  | idn (id : Identifier) (consumed : Nat)
  | msg (m : Message)
deriving DecidableEq, Repr

/-! ## Responses (R61, R70) -/

/-- R70: the status names. -/
inductive Status where
  | ok | badFormat | invalidData | invalidManufacturer | unknownKind | illegalOp | illegalOperand | capacity
deriving DecidableEq, Repr

/-- The errors an operation or the block can `raise` (R9, R200 to R204). -/
inductive Err where
  | badFormat
  | invalidData (offset : Nat)
  | invalidManufacturer (bytes : ByteSeq)
  /-- R201: reserved. The code exists and no rule raises it. -/
  | unknownKind
  | illegalOp
  | illegalOperand
  | capacity
deriving DecidableEq, Repr

/-- R61: the detail, present only for the statuses that carry one. -/
inductive Detail where
  | none
  | offset (n : Nat)
  | bytes (xs : ByteSeq)
deriving DecidableEq, Repr

/-- R61: `(status, detail, results)`. `results` is absent unless the status is OK (R206). -/
structure Response where
  status : Byte
  detail : Detail
  results : Option (List Field)
deriving DecidableEq, Repr

end Sys2Proof
end

