-- ==== Sys2Proof/WellFormed.lean ====
section
/-! DEFINITION. Which instructions hold only field values inside their types' domains (30_encoding.md R65, R66, R67). An
instruction that is not well-formed still has a meaning: it answers IllegalOperand (60_exceptions.md R203). -/

namespace Sys2Proof

/-- R65: each element of a BitSeq field is 0 or 1. -/
def wfBits (xs : List Byte) : Bool := xs.all (fun x => decide (x.toNat ≤ 1))

/-- R66: `id_tag` is 0, 1 or 2. -/
def wfId (f : IdField) : Bool := decide (f.tag.toNat ≤ 2)

/-- R67: `msg_tag` is 0, 1 or 2, and the `id` sub-field is checked only where the form uses it (tag 2). -/
def wfMsg (f : MsgField) : Bool := decide (f.tag.toNat ≤ 1) || (decide (f.tag.toNat = 2) && wfId f.id)

def Instr.wellFormed : Instr → Bool
  | .bitGet _ _ => true
  | .bitSet _ _ => true
  | .bitClear _ _ => true
  | .nybbleSplit _ => true
  | .nybbleJoin _ _ => true
  | .bitRangeReplace _ _ _ _ => true
  | .bitsOfByte _ => true
  | .byteOfBits bits => wfBits bits
  | .pack7bit _ => true
  | .unpack7bit _ => true
  | .mfgIdPack id => wfId id
  | .mfgIdUnpack _ => true
  | .sysexParse _ => true
  | .sysexEncode m => wfMsg m

end Sys2Proof
end

