-- ==== Sys2Proof/Decode.lean ====
section
/-! DEFINITION. The opcode map and formats of 30_encoding.md (R63, R64, R68), the decoder, and the encoder. The unit of the
encoding is the field: the byte layout of a request is the open parameter `WIRE_LAYOUT` (R62). -/

namespace Sys2Proof

/-! ## The opcode map (R68) -/

/-- R68: the opcode of each operation. -/
def Op.code : Op → Byte
  | .bitGet => 0x01#8
  | .bitSet => 0x02#8
  | .bitClear => 0x03#8
  | .nybbleSplit => 0x04#8
  | .nybbleJoin => 0x05#8
  | .bitRangeReplace => 0x06#8
  | .bitsOfByte => 0x07#8
  | .byteOfBits => 0x08#8
  | .pack7bit => 0x10#8
  | .unpack7bit => 0x11#8
  | .mfgIdPack => 0x20#8
  | .mfgIdUnpack => 0x21#8
  | .sysexParse => 0x30#8
  | .sysexEncode => 0x31#8

/-- R68: the operands' format of each operation. -/
def Op.format : Op → Format
  | .bitGet => .bp
  | .bitSet => .bp
  | .bitClear => .bp
  | .nybbleSplit => .b
  | .nybbleJoin => .hl
  | .bitRangeReplace => .brv
  | .bitsOfByte => .b
  | .byteOfBits => .bits
  | .pack7bit => .seq
  | .unpack7bit => .seq
  | .mfgIdPack => .id
  | .mfgIdUnpack => .seq
  | .sysexParse => .seq
  | .sysexEncode => .msg

/-- R68: the result format of each operation. -/
def Op.resFormat : Op → ResFormat
  | .bitGet => .bool
  | .bitSet => .b
  | .bitClear => .b
  | .nybbleSplit => .nyb
  | .nybbleJoin => .b
  | .bitRangeReplace => .b
  | .bitsOfByte => .bits
  | .byteOfBits => .b
  | .pack7bit => .seq
  | .unpack7bit => .seq
  | .mfgIdPack => .seq
  | .mfgIdUnpack => .idn
  | .sysexParse => .msg
  | .sysexEncode => .seq

/-- R68: the mnemonic of each operation. -/
def Op.mnemonic : Op → String
  | .bitGet => "bit_get"
  | .bitSet => "bit_set"
  | .bitClear => "bit_clear"
  | .nybbleSplit => "nybble_split"
  | .nybbleJoin => "nybble_join"
  | .bitRangeReplace => "bit_range_replace"
  | .bitsOfByte => "bits_of_byte"
  | .byteOfBits => "byte_of_bits"
  | .pack7bit => "pack_7bit"
  | .unpack7bit => "unpack_7bit"
  | .mfgIdPack => "mfg_id_pack"
  | .mfgIdUnpack => "mfg_id_unpack"
  | .sysexParse => "sysex_parse"
  | .sysexEncode => "sysex_encode"

/-- The rows of R68's table, in its order. -/
def Op.all : List Op :=
  [.bitGet, .bitSet, .bitClear, .nybbleSplit, .nybbleJoin, .bitRangeReplace, .bitsOfByte, .byteOfBits,
   .pack7bit, .unpack7bit, .mfgIdPack, .mfgIdUnpack, .sysexParse, .sysexEncode]

/-- R69: the operation is selected by all 8 bits of `op` alone; every other value names none. -/
def opOfCode (c : Byte) : Option Op := Op.all.find? (fun o => o.code == c)

/-! ## Formats (R63, R64) -/

/-- R63: the fields of an operand format, in order, with their names. -/
def Format.fields : Format → List (String × FieldKind)
  | .bp => [("b", .byte), ("p", .pos)]
  | .b => [("b", .byte)]
  | .hl => [("high", .byte), ("low", .byte)]
  | .brv => [("b", .byte), ("lo", .pos), ("hi", .pos), ("v", .byte)]
  | .bits => [("bits", .bits)]
  | .seq => [("s", .seq)]
  | .id => [("id", .ident)]
  | .msg => [("m", .msg)]

/-- R64: the fields of a result format, in order, with their names. A Bool and a nybble travel as a Byte. -/
def ResFormat.fields : ResFormat → List (String × FieldKind)
  | .bool => [("r", .byte)]
  | .b => [("r", .byte)]
  | .nyb => [("high", .byte), ("low", .byte)]
  | .bits => [("bits", .bits)]
  | .seq => [("r", .seq)]
  | .idn => [("id", .ident), ("consumed", .nat)]
  | .msg => [("m", .msg)]

/-- The kind of a field; none for a value that the wire could not carry. -/
def Field.kind : Field → Option FieldKind
  | .byte _ => some .byte
  | .pos _ => some .pos
  | .bits _ => some .bits
  | .seq _ => some .seq
  | .ident _ => some .ident
  | .msg _ => some .msg
  | .nat _ => some .nat
  | .uncarried => none

/-! ## Decoding -/

/-- R63: read the operand fields of an operation's format; none where they are not of that format. -/
def decodeOperands : Op → List Field → Option Instr
  | .bitGet, [.byte b, .pos p] => some (.bitGet b p)
  | .bitSet, [.byte b, .pos p] => some (.bitSet b p)
  | .bitClear, [.byte b, .pos p] => some (.bitClear b p)
  | .nybbleSplit, [.byte b] => some (.nybbleSplit b)
  | .nybbleJoin, [.byte high, .byte low] => some (.nybbleJoin high low)
  | .bitRangeReplace, [.byte b, .pos lo, .pos hi, .byte v] => some (.bitRangeReplace b lo hi v)
  | .bitsOfByte, [.byte b] => some (.bitsOfByte b)
  | .byteOfBits, [.bits xs] => some (.byteOfBits xs)
  | .pack7bit, [.seq s] => some (.pack7bit s)
  | .unpack7bit, [.seq s] => some (.unpack7bit s)
  | .mfgIdPack, [.ident f] => some (.mfgIdPack f)
  | .mfgIdUnpack, [.seq s] => some (.mfgIdUnpack s)
  | .sysexParse, [.seq s] => some (.sysexParse s)
  | .sysexEncode, [.msg f] => some (.sysexEncode f)
  | _, _ => none

/-- R69, R202: an `op` outside the map is IllegalOp and its operands are not examined. R203: operand fields that are not of
the format `op` selects, among them a value the wire could not carry, are IllegalOperand (DESIGN CHOICE for a list of the
wrong fields, log entry 5: safe, the spec says nothing of such a request). Reserved tags and bit elements decode, and the
operation that uses them raises IllegalOperand. -/
def decode (r : Request) : Except Err Instr :=
  match opOfCode r.op with
  | none => .error .illegalOp
  | some o =>
    match decodeOperands o r.operands with
    | none => .error .illegalOperand
    | some i => .ok i

/-! ## Encoding -/

def Instr.op : Instr → Op
  | .bitGet _ _ => .bitGet
  | .bitSet _ _ => .bitSet
  | .bitClear _ _ => .bitClear
  | .nybbleSplit _ => .nybbleSplit
  | .nybbleJoin _ _ => .nybbleJoin
  | .bitRangeReplace _ _ _ _ => .bitRangeReplace
  | .bitsOfByte _ => .bitsOfByte
  | .byteOfBits _ => .byteOfBits
  | .pack7bit _ => .pack7bit
  | .unpack7bit _ => .unpack7bit
  | .mfgIdPack _ => .mfgIdPack
  | .mfgIdUnpack _ => .mfgIdUnpack
  | .sysexParse _ => .sysexParse
  | .sysexEncode _ => .sysexEncode

/-- R63: the operand fields in the order of the format. -/
def Instr.operands : Instr → List Field
  | .bitGet b p => [.byte b, .pos p]
  | .bitSet b p => [.byte b, .pos p]
  | .bitClear b p => [.byte b, .pos p]
  | .nybbleSplit b => [.byte b]
  | .nybbleJoin high low => [.byte high, .byte low]
  | .bitRangeReplace b lo hi v => [.byte b, .pos lo, .pos hi, .byte v]
  | .bitsOfByte b => [.byte b]
  | .byteOfBits xs => [.bits xs]
  | .pack7bit s => [.seq s]
  | .unpack7bit s => [.seq s]
  | .mfgIdPack f => [.ident f]
  | .mfgIdUnpack s => [.seq s]
  | .sysexParse s => [.seq s]
  | .sysexEncode f => [.msg f]

/-- R60: the request of an instruction. -/
def encode (i : Instr) : Request := { op := i.op.code, operands := i.operands }

/-! ## The opcode table's numbering -/

/-- A field of zeros: number 0, the empty sequence, tags and bytes 0. -/
def FieldKind.zero : FieldKind → Field
  | .byte => .byte 0#8
  | .pos => .pos 0
  | .bits => .bits []
  | .seq => .seq []
  | .ident => .ident { tag := 0#8, b0 := 0#8, b1 := 0#8, b2 := 0#8 }
  | .msg => .msg { tag := 0#8, dc := 0#8, s1 := 0#8, s2 := 0#8, id := { tag := 0#8, b0 := 0#8, b1 := 0#8, b2 := 0#8 }, payload := [] }
  | .nat => .nat 0

/-- The request whose opcode is `w` and whose operand fields are all zero. The opcode table's rows are the 8 bits of `op`
(R68, R72) and give the operands no bits. For an `op` outside the map there are no operands. -/
def tableRequest (w : Nat) : Request :=
  let c := BitVec.ofNat 8 w
  { op := c
    operands := match opOfCode c with
      | some o => o.format.fields.map (fun f => f.2.zero)
      | none => [] }

/-- What the decoder reads from the request whose `op` field is the table's 8-bit word `w`. -/
def decodeTableWord (nbits w : Nat) : Option Instr :=
  if nbits = 8 ∧ w < 256 then (decode (tableRequest w)).toOption else none

end Sys2Proof
end

