-- ==== Sys2Proof/Config.lean ====
section
/-! DEFINITION. The parameters of 00_scope.md R5: what is fixed when the block is built (10_state.md R37). They are plain data,
held in State because R39 lists them beside the state; no step changes them, and the claims hold for every value of them. -/

namespace Sys2Proof

/-- R5 `REPLACE_OVERFLOW`: `bit_range_replace` with more significant value bits than the range. The source's alternative
`fail` would answer a status the spec does not define (93_implementation_defined.md row 1), so it is no value here. -/
inductive ReplaceOverflow where
  | truncate
deriving DecidableEq, Repr

/-- R5 `UNPACK_HIGH_BIT`: how `unpack_7bit` forms bit 7 of a data byte. This block takes `assign` (D14). -/
inductive UnpackHighBit where
  | assign
  | or
deriving DecidableEq, Repr

/-- R5 `STD_ID_HIGH_REGION`: the verdict of `mfg_id_unpack` for lead bytes 0x61..0x7C. This block takes `invalid` (D17). -/
inductive StdIdHighRegion where
  | invalid
  | standard
deriving DecidableEq, Repr

/-- The build-time parameters of R5. `BYTE_W` is the type `Byte`; `WIRE_LAYOUT` is left open (log entry 1). -/
structure Params where
  /-- `POS_W`: the signed width of a Pos field, or `none` where a Pos field carries every integer. -/
  posW : Option Nat
  /-- `MAX_SEQ_LEN`: the longest sequence accepted or produced, or `none` where it is unbounded. -/
  maxSeqLen : Option Nat
  replaceOverflow : ReplaceOverflow
  unpackHighBit : UnpackHighBit
  stdIdHighRegion : StdIdHighRegion
deriving DecidableEq, Repr

/-- The values R5 decides, with the two OPEN bounds absent: the field-level reference model (D5, D22; log entry 2). -/
def Params.block : Params :=
  { posW := none, maxSeqLen := none, replaceOverflow := .truncate, unpackHighBit := .assign, stdIdHighRegion := .invalid }

/-- The values R5 and D22 allow: `POS_W` at least 4, `MAX_SEQ_LEN` at least 8. -/
def Params.legal (P : Params) : Bool :=
  P.posW.all (fun w => decide (4 ≤ w)) && P.maxSeqLen.all (fun n => decide (8 ≤ n))

end Sys2Proof
end

