-- ==== Sys2Proof/Machine/State.lean ====
section
/-! DEFINITION. The state of the block: the request being served (10_state.md R33), the build-time parameters (R39), and the
two channels and the reset input through which the host drives it (R53, R60, R61, R230). There are no registers, flags,
program counter or memory (R20, R34 to R37; 20_memory.md R40), so there is no field for any. -/

namespace Sys2Proof.Machine

structure State where
  /-- 00_scope.md R5 and 10_state.md R39: fixed at build, unaffected by reset. -/
  params : Params
  /-- R230: a reset has arrived and has not yet taken effect. -/
  resetLine : Bool
  /-- R53, R60: requests the host has issued and the block has not accepted, in issue order. -/
  queue : List Request
  /-- R33: the request being served, or none. -/
  current : Option Request
  /-- R53, R61: responses delivered and not yet taken by the host, in delivery order. No step reads them (R36). -/
  responses : List Response
deriving DecidableEq, Repr

/-- Nothing stops the block: "No behaviour of the block is `stuck`, and no error is a `fault`" (93_implementation_defined.md;
60_exceptions.md R206, R217). There is no fault, and so no constructor. -/
inductive Fault where
deriving DecidableEq, Repr

inductive Refusal where
  /-- Raised by `exec` for an instruction that has no meaning yet. Safe: nothing is claimed of it. No arm raises it. -/
  | notModelled (mnemonic : String)
deriving DecidableEq, Repr

/-- R39, R230, R231: no request in progress, no response retained, and the parameters as the block is built. -/
def State.reset : State :=
  { params := Params.block, resetLine := false, queue := [], current := none, responses := [] }

end Sys2Proof.Machine
end

