-- ==== Sys2Proof/Machine/Operands.lean ====
section
/-! DEFINITION. From fields to values and back (30_encoding.md R65 to R67), the bounds of 00_scope.md R5 (60_exceptions.md R203,
R204), and the sequence notation of R8 and R10. -/

namespace Sys2Proof.Machine

/-! ## Sequences (R8, R10) -/

/-- R8 `elem(s, i)`: the element at position `i`. It is written only where `i < len(s)`; the 0 elsewhere is never used. -/
def elem (s : ByteSeq) (i : Nat) : Byte := s.getD i 0#8

/-- R8 `slice(s, a, b)`: the elements at positions `a` to `b - 1`. -/
def slice (s : ByteSeq) (a b : Nat) : ByteSeq := (s.drop a).take (b - a)

/-- The groups of `chunk`, at most `fuel` of them. -/
def chunkFuel (n : Nat) : Nat → ByteSeq → List ByteSeq
  | 0, _ => []
  | _ + 1, [] => []
  | fuel + 1, x :: s => (x :: s).take n :: chunkFuel n fuel ((x :: s).drop n)

/-- R10: consecutive sub-sequences of `n` elements, the last with the remaining `1..n`; none for the empty sequence. For
`n >= 1` a sequence has at most as many groups as elements. -/
def chunk (s : ByteSeq) (n : Nat) : List ByteSeq := chunkFuel n s.length s

/-! ## Fields and values -/

/-- R22, R65: an element of a BitSeq field: 0 or 1, and nothing else. -/
def bitOfField (x : Byte) : Option Bit :=
  if x = 0#8 then some false else if x = 1#8 then some true else none

/-- R65: the BitSeq of a field; none where an element is neither 0 nor 1. -/
def bitsOfField : List Byte → Option BitSeq
  | [] => some []
  | x :: xs =>
    match bitOfField x, bitsOfField xs with
    | some b, some bs => some (b :: bs)
    | _, _ => none

/-- R27, R65: a Bit or Bool as it travels. -/
def bitField (b : Bit) : Byte := if b then 1#8 else 0#8

/-- R66: the Identifier of a field; none for a reserved tag. Sub-fields the form does not use are ignored. -/
def idOfField (f : IdField) : Option Identifier :=
  if f.tag = 0#8 then some (.standard f.b0)
  else if f.tag = 1#8 then some (.extended f.b0 f.b1 f.b2)
  else if f.tag = 2#8 then some .development
  else none

/-- R66: an Identifier as it leaves: sub-fields the form does not use are 0. -/
def idField : Identifier → IdField
  | .standard b => { tag := 0#8, b0 := b, b1 := 0#8, b2 := 0#8 }
  | .extended b0 b1 b2 => { tag := 1#8, b0 := b0, b1 := b1, b2 := b2 }
  | .development => { tag := 2#8, b0 := 0#8, b1 := 0#8, b2 := 0#8 }

/-- R67: the Message of a field; none for a reserved `msg_tag`, or a reserved `id_tag` where the form uses `id`. An unused
`id` is not checked. -/
def msgOfField (f : MsgField) : Option Message :=
  if f.tag = 0#8 then some (.universal .nonRealTime { deviceChannel := f.dc, subId1 := f.s1, subId2 := f.s2 } f.payload)
  else if f.tag = 1#8 then some (.universal .realTime { deviceChannel := f.dc, subId1 := f.s1, subId2 := f.s2 } f.payload)
  else if f.tag = 2#8 then
    match idOfField f.id with
    | some id => some (.manufacturerSpecific id f.payload)
    | none => none
  else none

/-- R67: a Message as it leaves: unused Byte sub-fields are 0 and an unused `id` has tag 0 and all bytes 0. -/
def msgField : Message → MsgField
  | .universal .nonRealTime h p =>
    { tag := 0#8, dc := h.deviceChannel, s1 := h.subId1, s2 := h.subId2, id := idField (.standard 0#8), payload := p }
  | .universal .realTime h p =>
    { tag := 1#8, dc := h.deviceChannel, s1 := h.subId1, s2 := h.subId2, id := idField (.standard 0#8), payload := p }
  | .manufacturerSpecific id p =>
    { tag := 2#8, dc := 0#8, s1 := 0#8, s2 := 0#8, id := idField id, payload := p }

/-- R64: the result fields of a result, in the order of its format. -/
def resultFields : Result → List Field
  | .bool r => [.byte (bitField r)]
  | .byte r => [.byte r]
  | .nyb high low => [.byte high, .byte low]
  | .bits bs => [.bits (bs.map bitField)]
  | .seq r => [.seq r]
  | .idn id n => [.ident (idField id), .nat n]
  | .msg m => [.msg (msgField m)]

/-! ## Bounds (R5) -/

/-- R62, R203: a Pos that `POS_W` signed bits can carry. -/
def posFits (P : Params) (p : Int) : Bool :=
  match P.posW with
  | none => true
  | some w => decide (-(2 ^ (w - 1) : Int) ≤ p ∧ p < (2 ^ (w - 1) : Int))

/-- R204: a sequence length that is not above `MAX_SEQ_LEN`. -/
def lenFits (P : Params) (n : Nat) : Bool :=
  match P.maxSeqLen with
  | none => true
  | some m => decide (n ≤ m)

/-- The lengths of the sequences in a result, which R204 bounds. -/
def resultLens : Result → List Nat
  | .bool _ => []
  | .byte _ => []
  | .nyb _ _ => []
  | .bits bs => [bs.length]
  | .seq r => [r.length]
  | .idn _ _ => []
  | .msg (.universal _ _ p) => [p.length]
  | .msg (.manufacturerSpecific _ p) => [p.length]

end Sys2Proof.Machine
end

