-- ==== Sys2Proof/Machine/Flags.lean ====
section
/-! DEFINITION. The block has no flags (10_state.md R36). The one condition it reports is the status of a response: the codes of
30_encoding.md R70, and the responses they stand in (R61, R206). -/

namespace Sys2Proof.Machine

/-- R70. -/
def statusCode : Status → Byte
  | .ok => 0x00#8
  | .badFormat => 0x01#8
  | .invalidData => 0x02#8
  | .invalidManufacturer => 0x03#8
  | .unknownKind => 0x04#8
  | .illegalOp => 0x80#8
  | .illegalOperand => 0x81#8
  | .capacity => 0x82#8

/-- R200 to R204: the status of an error. -/
def errStatus : Err → Status
  | .badFormat => .badFormat
  | .invalidData _ => .invalidData
  | .invalidManufacturer _ => .invalidManufacturer
  | .unknownKind => .unknownKind
  | .illegalOp => .illegalOp
  | .illegalOperand => .illegalOperand
  | .capacity => .capacity

/-- R61, R70: the detail of an error: the offset for InvalidData, the bytes for InvalidManufacturer, none otherwise. -/
def errDetail : Err → Detail
  | .badFormat => .none
  | .invalidData n => .offset n
  | .invalidManufacturer bs => .bytes bs
  | .unknownKind => .none
  | .illegalOp => .none
  | .illegalOperand => .none
  | .capacity => .none

/-- R61, R206: an error response has the error's status and detail and no result fields. -/
def errResponse (e : Err) : Response :=
  { status := statusCode (errStatus e), detail := errDetail e, results := none }

/-- R61: the OK response with the result fields. -/
def okResponse (r : Result) : Response :=
  { status := statusCode .ok, detail := .none, results := some (resultFields r) }

end Sys2Proof.Machine
end

