-- ==== Sys2Proof/Machine/Ops.lean ====
section
/-! DEFINITION. The shared operations on the state: delivering a response, raising an error (60_exceptions.md R206), completing
an operation in the order of R207, accepting a request, taking a reset, and what the host does at the interface. -/

namespace Sys2Proof.Machine

/-- R33, R53: the response is delivered after every earlier one, and nothing of the request remains. -/
def deliver (r : Response) (s : State) : State :=
  { s with current := none, responses := s.responses ++ [r] }

/-- R206, "the block's trap entry": an error saves nothing and changes nothing. It ends the request with the error's status and
detail and no result fields. There is no vector, handler or mode, and so no return operation (R208). -/
def raise (e : Err) (s : State) : State := deliver (errResponse e) s

/-- The response of an operation, in the order of R207: operand fields outside their domains; operand sequences longer than
`MAX_SEQ_LEN`; the operation's own checks; a result longer than `MAX_SEQ_LEN`. -/
def respond (P : Params) (legal : Bool) (lens : List Nat) (act : Except Err Result) : Response :=
  if legal = false then errResponse .illegalOperand
  else if lens.all (lenFits P) = false then errResponse .capacity
  else
    match act with
    | .error e => errResponse e
    | .ok r => if (resultLens r).all (lenFits P) = false then errResponse .capacity else okResponse r

/-- R45, R217: the operation is served whole, with exactly one response. -/
def complete (legal : Bool) (lens : List Nat) (act : Except Err Result) (s : State) :
    Host.Outcome State Fault Refusal :=
  .next (deliver (respond s.params legal lens act) s)

/-- R53: the block accepts the request that was issued first. With none issued it stays as it is. -/
def accept (s : State) : State :=
  match s.queue with
  | [] => s
  | r :: rest => { s with current := some r, queue := rest }

/-- R230: a reset abandons the request in service, with no response. Parameters stay (R39), and so do the requests the block
has not accepted and the responses it has delivered, which are the host's. -/
def takeReset (s : State) : State := { s with resetLine := false, current := none }

/-! ## What the host does at the interface -/

/-- R60: the host issues a request. -/
def issue (r : Request) (s : State) : State := { s with queue := s.queue ++ [r] }

/-- R230: the host resets the block. -/
def assertReset (s : State) : State := { s with resetLine := true }

/-- R61: the host takes the oldest response; none where there is none. -/
def takeResponse (s : State) : Option (Response × State) :=
  match s.responses with
  | [] => none
  | r :: rest => some (r, { s with responses := rest })

end Sys2Proof.Machine
end

