-- ==== Sys2Proof/Machine/BitNybble.lean ====
section
/-! DEFINITION. The bit and nybble primitives (40_bit_nybble.md R100 to R108). -/

namespace Sys2Proof.Machine

/-- The positions a Byte has; every other position is ignored (R25). -/
def inByte (p : Int) : Bool := decide (0 ≤ p ∧ p ≤ 7)

/-- R100. -/
def bitGet (b : Byte) (p : Int) : Bool := if inByte p then b.getLsbD p.toNat else false

/-- R101. -/
def bitSet (b : Byte) (p : Int) : Byte := if inByte p then b ||| (1#8 <<< p.toNat) else b

/-- R102. -/
def bitClear (b : Byte) (p : Int) : Byte := if inByte p then b &&& ~~~(1#8 <<< p.toNat) else b

/-- R103: the high and the low nybble. -/
def highNybble (b : Byte) : Byte := (b &&& 0xF0#8) >>> 4

/-- R103. -/
def lowNybble (b : Byte) : Byte := b &&& 0x0F#8

/-- R104: the operands are not checked, and the shift keeps 8 bits. -/
def nybbleJoin (high low : Byte) : Byte := (high <<< 4) ||| low

/-- R105: ones exactly at positions `lo` to `lo + n - 1`. -/
def rangeMask (lo n : Nat) : Byte := BitVec.ofNat 8 ((2 ^ n - 1) * 2 ^ lo)

/-- R105: a range is valid iff `0 <= lo <= hi <= 7`, and an invalid one changes nothing (D11). The range receives the low bits
of `v`, its upper positions 0 where `v` is shorter (D12); `REPLACE_OVERFLOW = truncate` drops the bits of `v` above the range
(D13). -/
def bitRangeReplace (ov : ReplaceOverflow) (b : Byte) (lo hi : Int) (v : Byte) : Byte :=
  if 0 ≤ lo ∧ lo ≤ hi ∧ hi ≤ 7 then
    let m := rangeMask lo.toNat (hi - lo + 1).toNat
    match ov with
    | .truncate => (b &&& ~~~m) ||| ((v <<< lo.toNat) &&& m)
  else b

/-- R107: eight bits, position 0 the least significant. -/
def bitsOfByte (b : Byte) : BitSeq := (List.range 8).map (fun i => b.getLsbD i)

/-- R108: the byte whose bit `i` is the element at position `i`; positions 8 and beyond are ignored (D10), absent ones are 0. -/
def byteOfBits (bits : BitSeq) : Byte :=
  (List.range (min bits.length 8)).foldl (fun r i => r ||| (bitField (bits.getD i false) <<< i)) 0#8

def execBitGet (b : Byte) (p : Int) (s : State) : Host.Outcome State Fault Refusal :=
  complete (posFits s.params p) [] (.ok (.bool (bitGet b p))) s

def execBitSet (b : Byte) (p : Int) (s : State) : Host.Outcome State Fault Refusal :=
  complete (posFits s.params p) [] (.ok (.byte (bitSet b p))) s

def execBitClear (b : Byte) (p : Int) (s : State) : Host.Outcome State Fault Refusal :=
  complete (posFits s.params p) [] (.ok (.byte (bitClear b p))) s

def execNybbleSplit (b : Byte) (s : State) : Host.Outcome State Fault Refusal :=
  complete true [] (.ok (.nyb (highNybble b) (lowNybble b))) s

def execNybbleJoin (high low : Byte) (s : State) : Host.Outcome State Fault Refusal :=
  complete true [] (.ok (.byte (nybbleJoin high low))) s

def execBitRangeReplace (b : Byte) (lo hi : Int) (v : Byte) (s : State) : Host.Outcome State Fault Refusal :=
  complete (posFits s.params lo && posFits s.params hi) []
    (.ok (.byte (bitRangeReplace s.params.replaceOverflow b lo hi v))) s

def execBitsOfByte (b : Byte) (s : State) : Host.Outcome State Fault Refusal :=
  complete true [] (.ok (.bits (bitsOfByte b))) s

/-- R108, R65: an element other than 0 or 1 is an IllegalOperand. -/
def execByteOfBits (xs : List Byte) (s : State) : Host.Outcome State Fault Refusal :=
  complete (bitsOfField xs).isSome [xs.length]
    (match bitsOfField xs with
      | some bits => .ok (.byte (byteOfBits bits))
      | none => .error .illegalOperand) s

end Sys2Proof.Machine
end

