-- ==== Sys2Proof/Machine/MfgId.lean ====
section
/-! DEFINITION. The manufacturer identifier codec (42_mfg_id.md R160 to R162). -/

namespace Sys2Proof.Machine

/-- R160: an identifier to its wire bytes; an identifier that is not encodable (R28) is InvalidManufacturer with its bytes. -/
def mfgIdPack : Identifier → Except Err ByteSeq
  | .standard b =>
    if b = 0x00#8 ∨ b = 0x7D#8 ∨ b = 0x7E#8 ∨ b = 0x7F#8 then .error (.invalidManufacturer [b]) else .ok [b]
  | .extended b0 b1 b2 =>
    if b0 ≠ 0x00#8 then .error (.invalidManufacturer [b0, b1, b2]) else .ok [0x00#8, b1, b2]
  | .development => .ok [0x7D#8]

/-- R161: the lead bytes that stand for a standard identifier: 0x01..0x5F, and 0x61..0x7C where `STD_ID_HIGH_REGION` is
`standard` (D17). -/
def standardLead (region : StdIdHighRegion) (a : Byte) : Bool :=
  decide (1 ≤ a.toNat ∧ a.toNat ≤ 0x5F)
    || (decide (0x61 ≤ a.toNat ∧ a.toNat ≤ 0x7C) && decide (region = .standard))

/-- R162: the identifier at the front of a sequence, and how many bytes it takes. Later bytes are not examined (D33). -/
def mfgIdUnpack (region : StdIdHighRegion) (xs : ByteSeq) : Except Err (Identifier × Nat) :=
  if xs.length = 0 then .error (.invalidData 0)
  else
    let a := elem xs 0
    if a = 0x00#8 then
      if xs.length < 3 then .error (.invalidData 0) else .ok (.extended 0x00#8 (elem xs 1) (elem xs 2), 3)
    else if a = 0x7D#8 then .ok (.development, 1)
    else if standardLead region a then .ok (.standard a, 1)
    else .error (.invalidManufacturer [a])

/-- R160; a reserved `id_tag` is an IllegalOperand (R66). -/
def execMfgIdPack (f : IdField) (s : State) : Host.Outcome State Fault Refusal :=
  complete (idOfField f).isSome []
    (match idOfField f with
      | some id => (mfgIdPack id).map .seq
      | none => .error .illegalOperand) s

def execMfgIdUnpack (xs : ByteSeq) (s : State) : Host.Outcome State Fault Refusal :=
  complete true [xs.length] ((mfgIdUnpack s.params.stdIdHighRegion xs).map (fun r => .idn r.1 r.2)) s

end Sys2Proof.Machine
end

