-- ==== Sys2Proof/Machine/Pack7.lean ====
section
/-! DEFINITION. The 7-bit packer and unpacker (41_pack7.md R140, R141). -/

namespace Sys2Proof.Machine

/-- R140: bit `i` of the index byte is bit 7 of the `i`-th byte of the group. -/
def indexByte (g : ByteSeq) : Byte :=
  (List.range g.length).foldl (fun idx i => if (elem g i).getLsbD 7 then idx ||| (1#8 <<< i) else idx) 0#8

/-- R140: the index byte, then each byte of the group masked to 7 bits. -/
def packGroup (g : ByteSeq) : ByteSeq := indexByte g :: g.map (fun x => x &&& 0x7F#8)

/-- R140: the groups of at most 7 bytes, packed one after the other. -/
def pack7bit (s : ByteSeq) : ByteSeq := (chunk s 7).flatMap packGroup

/-- R141: a data byte with its bit 7 taken from the index byte. Under `assign` bit 7 of the data byte is ignored (D14); under
the alternative `or` it is ORed in. -/
def restoreHighBit (hb : UnpackHighBit) (bit : Bit) (d : Byte) : Byte :=
  match hb with
  | .assign => (d &&& 0x7F#8) ||| (bitField bit <<< 7)
  | .or => d ||| (bitField bit <<< 7)

/-- R141: the first byte of a group is its index byte, and the `j`-th byte after it takes bit `j` of it. -/
def unpackGroup (hb : UnpackHighBit) : ByteSeq → ByteSeq
  | [] => []
  | idx :: ds => ds.zipIdx.map (fun dj => restoreHighBit hb (idx.getLsbD dj.2) dj.1)

/-- R141: the groups of at most 8 wire bytes, unpacked one after the other. -/
def unpack7bit (hb : UnpackHighBit) (w : ByteSeq) : ByteSeq := (chunk w 8).flatMap (unpackGroup hb)

def execPack7bit (xs : ByteSeq) (s : State) : Host.Outcome State Fault Refusal :=
  complete true [xs.length] (.ok (.seq (pack7bit xs))) s

def execUnpack7bit (xs : ByteSeq) (s : State) : Host.Outcome State Fault Refusal :=
  complete true [xs.length] (.ok (.seq (unpack7bit s.params.unpackHighBit xs))) s

end Sys2Proof.Machine
end

