-- ==== Sys2Proof/Machine/Sysex.lean ====
section
/-! DEFINITION. The System Exclusive frame parser and encoder (43_sysex_frame.md R180 to R185). -/

namespace Sys2Proof.Machine

/-- R180, R181: the checks in the source's order, then the classification of byte 1. No interior byte is checked (R182). -/
def sysexParse (xs : ByteSeq) : Except Err Message :=
  let n := xs.length
  if n < 5 then .error (.invalidData 0)
  else if elem xs 0 ≠ 0xF0#8 then .error .badFormat
  else if elem xs (n - 1) ≠ 0xF7#8 then .error .badFormat
  else
    let a := elem xs 1
    if a = 0x7E#8 ∨ a = 0x7F#8 then
      if n < 6 then .error (.invalidData 0)
      else
        .ok (.universal (if a = 0x7E#8 then .nonRealTime else .realTime)
          { deviceChannel := elem xs 2, subId1 := elem xs 3, subId2 := elem xs 4 } (slice xs 5 (n - 1)))
    else if a = 0x7D#8 then .ok (.manufacturerSpecific .development (slice xs 2 (n - 1)))
    else if a = 0x00#8 then
      .ok (.manufacturerSpecific (.extended 0x00#8 (elem xs 2) (elem xs 3)) (slice xs 4 (n - 1)))
    else .ok (.manufacturerSpecific (.standard a) (slice xs 2 (n - 1)))

/-- R185: the byte after the initiator of a universal message. -/
def kindByte : Kind → Byte
  | .nonRealTime => 0x7E#8
  | .realTime => 0x7F#8

/-- R185: the frame of a message; header and payload are emitted with no check (D21). -/
def sysexEncode : Message → Except Err ByteSeq
  | .universal k h p => .ok ([0xF0#8, kindByte k, h.deviceChannel, h.subId1, h.subId2] ++ p ++ [0xF7#8])
  | .manufacturerSpecific id p =>
    match mfgIdPack id with
    | .error e => .error e
    | .ok ib => .ok ([0xF0#8] ++ ib ++ p ++ [0xF7#8])

def execSysexParse (xs : ByteSeq) (s : State) : Host.Outcome State Fault Refusal :=
  complete true [xs.length] ((sysexParse xs).map .msg) s

/-- R185; a reserved `msg_tag`, or a reserved `id_tag` where `id` is used, is an IllegalOperand (R66, R67). -/
def execSysexEncode (f : MsgField) (s : State) : Host.Outcome State Fault Refusal :=
  complete (msgOfField f).isSome [f.payload.length]
    (match msgOfField f with
      | some m => (sysexEncode m).map .seq
      | none => .error .illegalOperand) s

end Sys2Proof.Machine
end

