-- ==== Sys2Proof/Machine/Dispatch.lean ====
section
/-! DEFINITION. One arm per operation of the opcode map (30_encoding.md R68). -/

namespace Sys2Proof.Machine

def exec (i : Instr) (s : State) : Host.Outcome State Fault Refusal :=
  match i with
  | .bitGet b p => Sys2Proof.Machine.execBitGet b p s
  | .bitSet b p => Sys2Proof.Machine.execBitSet b p s
  | .bitClear b p => Sys2Proof.Machine.execBitClear b p s
  | .nybbleSplit b => Sys2Proof.Machine.execNybbleSplit b s
  | .nybbleJoin high low => Sys2Proof.Machine.execNybbleJoin high low s
  | .bitRangeReplace b lo hi v => Sys2Proof.Machine.execBitRangeReplace b lo hi v s
  | .bitsOfByte b => Sys2Proof.Machine.execBitsOfByte b s
  | .byteOfBits bits => Sys2Proof.Machine.execByteOfBits bits s
  | .pack7bit xs => Sys2Proof.Machine.execPack7bit xs s
  | .unpack7bit xs => Sys2Proof.Machine.execUnpack7bit xs s
  | .mfgIdPack id => Sys2Proof.Machine.execMfgIdPack id s
  | .mfgIdUnpack xs => Sys2Proof.Machine.execMfgIdUnpack xs s
  | .sysexParse xs => Sys2Proof.Machine.execSysexParse xs s
  | .sysexEncode m => Sys2Proof.Machine.execSysexEncode m s

end Sys2Proof.Machine
end

