-- ==== Sys2Proof/Machine/Serve.lean ====
section
/-! DEFINITION. Serving a request (10_state.md R33, 20_memory.md R53, 70_reset_and_hazards.md R230). -/

namespace Sys2Proof.Machine

/-- R33: the request in service is decoded and executed; a request that does not decode ends with its error (R202, R203). -/
def serve (r : Request) (s : State) : Host.Outcome State Fault Refusal :=
  match decode r with
  | .error e => .next (raise e s)
  | .ok i => exec i s

/-- One step of the block: a reset that has arrived takes effect (R230); otherwise the request in service is served whole
(R45); otherwise the next request is accepted (R53), or, with none issued, nothing happens. -/
def service (s : State) : Host.Outcome State Fault Refusal :=
  if s.resetLine then .next (takeReset s)
  else
    match s.current with
    | some r => serve r s
    | none => .next (accept s)

end Sys2Proof.Machine
end

