-- ==== Sys2Proof/Machine/Step.lean ====
section
/-! DEFINITION. One step of the block, and the state in which the next step serves a given opcode-table word. -/

namespace Sys2Proof.Machine

/-- One step of the block. -/
def step (s : State) : Host.Outcome State Fault Refusal := service s

/-- `s` with the request whose `op` field is the table's 8-bit word `w`, and whose operand fields are zero, accepted and in
service, and no reset waiting. The block fetches nothing (20_memory.md R50): a request comes from the host. -/
def State.withFetchWord (s : State) (nbits w : Nat) : State :=
  { s with resetLine := false, current := some (tableRequest (w % 2 ^ nbits)) }

end Sys2Proof.Machine
end

