-- ==== Sys2Proof/Machine/Script.lean ====
section
/-! DEFINITION. Request scripts (30_encoding.md R80, R81, R84): the host that issues requests and receives responses. It is an
agent of its own. "Host lines are executed by the host, not the block; the block sees only the requests": nothing here is part
of the block's State, and the block is driven through `issue`, `step` and `takeResponse` alone. -/

namespace Sys2Proof.Machine

/-! ## Operands and lines (R80) -/

/-- A reference to a host variable, or to a field of the response it holds: `v`, `v.status`, `v.m.payload`. -/
structure Path where
  var : String
  fields : List String
deriving DecidableEq, Repr

/-- R80: a Byte is a literal or a host variable. -/
inductive ByteArg where
  | lit (b : Byte)
  | ref (p : Path)
deriving DecidableEq, Repr

/-- R80: a ByteSeq is `[b, b, ...]` or a host variable. -/
inductive SeqArg where
  | lit (xs : List ByteArg)
  | ref (p : Path)
deriving DecidableEq, Repr

/-- R80: the three forms of an Identifier, or a host variable. -/
inductive IdArg where
  | standard (b : ByteArg)
  | extended (b0 b1 b2 : ByteArg)
  | development
  | ref (p : Path)
deriving DecidableEq, Repr

/-- R80: the two forms of a Message, or a host variable. -/
inductive MsgArg where
  | universal (kind : Kind) (dc s1 s2 : ByteArg) (payload : SeqArg)
  | manufacturerSpecific (id : IdArg) (payload : SeqArg)
  | ref (p : Path)
deriving DecidableEq, Repr

/-- R80: an operand. A BitSeq's elements are carried as Bytes (R65), so that `bits[1, 2]` can be written. -/
inductive Arg where
  | byte (a : ByteArg)
  | pos (p : Int)
  | bits (xs : List Byte)
  | bitsRef (p : Path)
  | seq (a : SeqArg)
  | ident (a : IdArg)
  | msg (a : MsgArg)
deriving DecidableEq, Repr

/-- R81: the pseudo-instructions. -/
inductive Pseudo where
  | isBitSet | highNybble | lowNybble | byteFromNybbles
deriving DecidableEq, Repr

/-- What a condition compares a field with (R84): a status name, a Bool, a number, a sequence and so on, or another field. DESIGN
CHOICE (log entry 13): the spec gives no grammar of a condition. -/
inductive CondArg where
  | status (st : Status)
  | bool (b : Bool)
  | num (n : Int)
  | arg (a : Arg)
  | ref (p : Path)
deriving DecidableEq, Repr

/-- R84: a line of a script: a request line (R80), a pseudo-instruction (R81), or a host line. -/
inductive Line where
  | request (bind : String) (op : Op) (args : List Arg)
  | pseudo (bind : String) (p : Pseudo) (args : List Arg)
  /-- `if <lhs> == <rhs> goto <label>`, or with `!=` where `eq` is false. -/
  | branch (lhs : Path) (eq : Bool) (rhs : CondArg) (label : String)
  | label (l : String)
  | halt
deriving DecidableEq, Repr

/-- R81: the source's name of each pseudo-instruction, as the assembler writes it. -/
def Pseudo.name : Pseudo → String
  | .isBitSet => "is_bit_set"
  | .highNybble => "high_nybble"
  | .lowNybble => "low_nybble"
  | .byteFromNybbles => "byte_from_nybbles"

/-- R81: the request each pseudo-instruction expands to. -/
def Pseudo.op : Pseudo → Op
  | .isBitSet => .bitGet
  | .highNybble => .nybbleSplit
  | .lowNybble => .nybbleSplit
  | .byteFromNybbles => .nybbleJoin

/-- R81: the result field each pseudo-instruction names. -/
def Pseudo.field : Pseudo → String
  | .isBitSet => "r"
  | .highNybble => "high"
  | .lowNybble => "low"
  | .byteFromNybbles => "r"

/-! ## The host's state -/

/-- What a host variable holds: a whole response with its result format (R80), or the one field a pseudo-instruction binds
(R81). -/
inductive HostVal where
  | response (fmt : ResFormat) (r : Response)
  | value (f : Field)
deriving DecidableEq, Repr

/-- The request line whose response the host waits for: the variable to bind, the result format, and the field to bind where
the line is a pseudo-instruction. -/
structure Waiting where
  bind : String
  fmt : ResFormat
  field : Option String
deriving DecidableEq, Repr

structure HostState where
  /-- R84: the host variables, each at most once. -/
  vars : List (String × HostVal)
  /-- The position of the line to execute next. -/
  line : Nat
  waiting : Option Waiting
deriving DecidableEq, Repr

/-- The host and one instance of the block. -/
structure System where
  host : HostState
  block : State
deriving DecidableEq, Repr

/-- 95_test_vectors.md part 7: a script starts with an empty set of host variables, at its first line. -/
def HostState.start : HostState := { vars := [], line := 0, waiting := none }

/-- Why a script stops where the spec gives the host no next action (DESIGN CHOICE, log entry 9: safe). -/
inductive ScriptStop where
  /-- A variable that is not bound, or a field that the bound response does not have. -/
  | unbound (p : Path)
  /-- An operand of another type than the field it stands in, such as a byte literal in place of a sequence. -/
  | badOperand
  /-- A `goto` to a label no line carries. -/
  | noLabel (l : String)
  /-- The block did not answer with a next state. It always does (60_exceptions.md R217). -/
  | blockStopped
deriving DecidableEq, Repr

/-- One step of a script: it goes on, it has reached `halt` or its end (R84), or it stops. -/
inductive ScriptOutcome where
  | next (y : System)
  | halted
  | stopped (why : ScriptStop)
deriving DecidableEq, Repr

/-! ## Reading host variables (R80) -/

/-- The sub-fields of an Identifier or Message field (R66, R67). -/
def subField : Field → String → Option Field
  | .ident f, n =>
    if n = "id_tag" then some (.byte f.tag)
    else if n = "id_b0" then some (.byte f.b0)
    else if n = "id_b1" then some (.byte f.b1)
    else if n = "id_b2" then some (.byte f.b2)
    else none
  | .msg f, n =>
    if n = "msg_tag" then some (.byte f.tag)
    else if n = "hdr_dc" then some (.byte f.dc)
    else if n = "hdr_s1" then some (.byte f.s1)
    else if n = "hdr_s2" then some (.byte f.s2)
    else if n = "id" then some (.ident f.id)
    else if n = "payload" then some (.seq f.payload)
    else none
  | _, _ => none

/-- A field, then sub-fields of it. -/
def subFields : Field → List String → Option Field
  | f, [] => some f
  | f, n :: ns => (subField f n).bind (fun g => subFields g ns)

/-- R61: the detail of a response as a field; none where the status carries none. -/
def detailField : Detail → Option Field
  | .none => none
  | .offset n => some (.nat n)
  | .bytes xs => some (.seq xs)

/-- The result field of that name (R64), where the response has results. -/
def resultField (fmt : ResFormat) (r : Response) (n : String) : Option Field :=
  match r.results with
  | none => none
  | some fs => ((fmt.fields.map Prod.fst).zip fs).lookup n

/-- R80: `<bind>.status`, `<bind>.detail` and `<bind>.<result field>`. -/
def readVal : HostVal → List String → Option Field
  | .value f, ns => subFields f ns
  | .response _ _, [] => none
  | .response fmt r, n :: ns =>
    (if n = "status" then some (.byte r.status)
      else if n = "detail" then detailField r.detail
      else resultField fmt r n).bind (fun f => subFields f ns)

def readPath (h : HostState) (p : Path) : Except ScriptStop Field :=
  match (h.vars.lookup p.var).bind (fun v => readVal v p.fields) with
  | some f => .ok f
  | none => .error (.unbound p)

/-- R80: binding a variable replaces what it held. -/
def bindVar (n : String) (v : HostVal) (h : HostState) : HostState :=
  { h with vars := (n, v) :: h.vars.filter (fun x => x.1 != n) }

/-! ## Operands to fields -/

def evalByte (h : HostState) : ByteArg → Except ScriptStop Byte
  | .lit b => .ok b
  | .ref p =>
    match readPath h p with
    | .ok (.byte b) => .ok b
    | .ok _ => .error .badOperand
    | .error e => .error e

def evalBytes (h : HostState) : List ByteArg → Except ScriptStop ByteSeq
  | [] => .ok []
  | a :: as =>
    match evalByte h a, evalBytes h as with
    | .ok b, .ok bs => .ok (b :: bs)
    | .error e, _ => .error e
    | _, .error e => .error e

def evalSeq (h : HostState) : SeqArg → Except ScriptStop ByteSeq
  | .lit xs => evalBytes h xs
  | .ref p =>
    match readPath h p with
    | .ok (.seq xs) => .ok xs
    | .ok _ => .error .badOperand
    | .error e => .error e

/-- The Identifier field of an operand (R66). DESIGN CHOICE (log entry 17): the sub-fields that a literal's form does not use are
sent as 0. -/
def evalId (h : HostState) : IdArg → Except ScriptStop IdField
  | .standard b => (evalByte h b).map (fun x => idField (.standard x))
  | .extended b0 b1 b2 =>
    match evalByte h b0, evalByte h b1, evalByte h b2 with
    | .ok x0, .ok x1, .ok x2 => .ok (idField (.extended x0 x1 x2))
    | .error e, _, _ => .error e
    | _, .error e, _ => .error e
    | _, _, .error e => .error e
  | .development => .ok (idField .development)
  | .ref p =>
    match readPath h p with
    | .ok (.ident f) => .ok f
    | .ok _ => .error .badOperand
    | .error e => .error e

def kindTag : Kind → Byte
  | .nonRealTime => 0#8
  | .realTime => 1#8

/-- The Message field of an operand (R67). DESIGN CHOICE (log entry 17): the sub-fields that a literal's form does not use are sent
as 0, an unused `id` with tag 0 and all bytes 0. -/
def evalMsg (h : HostState) : MsgArg → Except ScriptStop MsgField
  | .universal k dc s1 s2 p =>
    match evalBytes h [dc, s1, s2], evalSeq h p with
    | .ok bs, .ok xs =>
      .ok { tag := kindTag k, dc := elem bs 0, s1 := elem bs 1, s2 := elem bs 2, id := idField (.standard 0#8), payload := xs }
    | .error e, _ => .error e
    | _, .error e => .error e
  | .manufacturerSpecific id p =>
    match evalId h id, evalSeq h p with
    | .ok f, .ok xs => .ok { tag := 2#8, dc := 0#8, s1 := 0#8, s2 := 0#8, id := f, payload := xs }
    | .error e, _ => .error e
    | _, .error e => .error e
  | .ref p =>
    match readPath h p with
    | .ok (.msg f) => .ok f
    | .ok _ => .error .badOperand
    | .error e => .error e

def evalArg (h : HostState) : Arg → Except ScriptStop Field
  | .byte a => (evalByte h a).map .byte
  | .pos p => .ok (.pos p)
  | .bits xs => .ok (.bits xs)
  | .bitsRef p =>
    match readPath h p with
    | .ok (.bits xs) => .ok (.bits xs)
    | .ok _ => .error .badOperand
    | .error e => .error e
  | .seq a => (evalSeq h a).map .seq
  | .ident a => (evalId h a).map .ident
  | .msg a => (evalMsg h a).map .msg

def evalArgs (h : HostState) : List Arg → Except ScriptStop (List Field)
  | [] => .ok []
  | a :: as =>
    match evalArg h a, evalArgs h as with
    | .ok f, .ok fs => .ok (f :: fs)
    | .error e, _ => .error e
    | _, .error e => .error e

/-! ## Conditions (R84) -/

/-- Does a field equal a number: a Byte and a natural number by their value, a Pos as the integer it is (DESIGN CHOICE, log
entry 13). -/
def fieldIsNum (n : Int) : Field → Bool
  | .byte b => decide ((b.toNat : Int) = n)
  | .pos p => decide (p = n)
  | .nat m => decide ((m : Int) = n)
  | _ => false

/-- R84: `==` on response fields. A status and a Bool travel as Bytes (R27, R70). -/
def condEq (h : HostState) (f : Field) : CondArg → Except ScriptStop Bool
  | .status st => .ok (decide (f = .byte (statusCode st)))
  | .bool b => .ok (decide (f = .byte (bitField b)))
  | .num n => .ok (fieldIsNum n f)
  | .arg a => (evalArg h a).map (fun g => decide (f = g))
  | .ref p => (readPath h p).map (fun g => decide (f = g))

def evalCond (h : HostState) (lhs : Path) (eq : Bool) (rhs : CondArg) : Except ScriptStop Bool :=
  match readPath h lhs with
  | .error e => .error e
  | .ok f => (condEq h f rhs).map (fun b => b == eq)

/-- The position of the line that carries a label. -/
def labelLine (script : List Line) (l : String) : Option Nat := script.findIdx? (fun x => decide (x = .label l))

/-! ## Execution -/

def advance (h : HostState) : HostState := { h with line := h.line + 1 }

/-- A request line: one request to the block, and the host waits for its response (R84, R80, R234). DEDUCED (log entry 15): it
waits after every request line. -/
def issueLine (w : Waiting) (op : Op) (args : List Arg) (y : System) : ScriptOutcome :=
  match evalArgs y.host args with
  | .error e => .stopped e
  | .ok fs =>
    .next { host := { advance y.host with waiting := some w }, block := issue { op := op.code, operands := fs } y.block }

/-- The response of the line the host waits for: the whole response (R80), or the named field of it (R81). DESIGN CHOICE (log
entry 12): of a pseudo-instruction only the named field is kept; the expansion's `t` is no host variable of the script. -/
def receive (w : Waiting) (r : Response) (h : HostState) : Except ScriptStop HostState :=
  match w.field with
  | none => .ok { bindVar w.bind (.response w.fmt r) h with waiting := none }
  | some n =>
    match resultField w.fmt r n with
    | some f => .ok { bindVar w.bind (.value f) h with waiting := none }
    | none => .error (.unbound { var := w.bind, fields := [n] })

/-- R84: one line, executed by the host; for a host line the block is not touched. -/
def execLine (script : List Line) (l : Line) (y : System) : ScriptOutcome :=
  match l with
  | .request b op args => issueLine { bind := b, fmt := op.resFormat, field := none } op args y
  | .pseudo b p args => issueLine { bind := b, fmt := p.op.resFormat, field := some p.field } p.op args y
  | .branch lhs eq rhs l =>
    match evalCond y.host lhs eq rhs with
    | .error e => .stopped e
    | .ok false => .next { y with host := advance y.host }
    | .ok true =>
      match labelLine script l with
      | some n => .next { y with host := { y.host with line := n } }
      | none => .stopped (.noLabel l)
  | .label _ => .next { y with host := advance y.host }
  | .halt => .halted

/-- One step of the host and the block together. While the host waits, the block steps until its response is there (log entry 15);
R84: a script ends at `halt` or after its last line. DESIGN CHOICE (log entry 14): where a reset abandons the request the host waits
for, it does not issue it again, and waits on (R230 leaves the issuing again to the host). -/
def scriptStep (script : List Line) (y : System) : ScriptOutcome :=
  match y.host.waiting with
  | some w =>
    match takeResponse y.block with
    | some (r, b) =>
      match receive w r y.host with
      | .ok h => .next { host := h, block := b }
      | .error e => .stopped e
    | none =>
      match step y.block with
      | .next b => .next { y with block := b }
      | .fault _ => .stopped .blockStopped
      | .refused _ => .stopped .blockStopped
  | none =>
    match script[y.host.line]? with
    | some l => execLine script l y
    | none => .halted

/-- At most `n` steps of a script: the system it stands in, and how it stopped if it did. -/
def scriptRun (script : List Line) : Nat → System → System × Option ScriptOutcome
  | 0, y => (y, none)
  | n + 1, y =>
    match scriptStep script y with
    | .next y' => scriptRun script n y'
    | .halted => (y, some .halted)
    | .stopped w => (y, some (.stopped w))

end Sys2Proof.Machine
end

