-- ==== Sys2Proof/Safety.lean ====
section
/-! DEFINITION. What a safe run is. Nothing stops the block, so safety is about what it delivers: every response in its hands is
one that 30_encoding.md R61, R64, R66, R67 and R70, and 42_mfg_id.md R163 (d), allow. -/

namespace Sys2Proof

open Sys2Proof.Machine

/-- 10_state.md R28: the identifiers that have wire bytes of their own. -/
def encodable : Identifier → Bool
  | .standard b => !(decide (b = 0x00#8) || decide (b = 0x7D#8) || decide (b = 0x7E#8) || decide (b = 0x7F#8))
  | .extended b0 _ _ => decide (b0 = 0x00#8)
  | .development => true

/-- An Identifier field as it may leave the block: an encodable identifier (R163 (d)), with every sub-field that its form does
not use 0 (R66). -/
def idFieldOk (f : IdField) : Bool :=
  match idOfField f with
  | some id => encodable id && decide (f = idField id)
  | none => false

/-- A Message field as it may leave the block: no reserved tag, every unused sub-field 0 (R67), an encodable identifier
(R163 (d)), and a payload that is not above `MAX_SEQ_LEN` (R204). -/
def msgFieldOk (P : Params) (f : MsgField) : Bool :=
  match msgOfField f with
  | some (.universal k h p) => decide (f = msgField (.universal k h p)) && lenFits P p.length
  | some (.manufacturerSpecific id p) =>
    encodable id && decide (f = msgField (.manufacturerSpecific id p)) && lenFits P p.length
  | none => false

/-- Result fields of one of the formats of R64, each inside its domain. -/
def resultsOk (P : Params) : List Field → Bool
  | [.byte _] => true
  | [.byte high, .byte low] => decide (high.toNat ≤ 15) && decide (low.toNat ≤ 15)
  | [.bits xs] => decide (xs.length = 8) && wfBits xs
  | [.seq xs] => lenFits P xs.length
  | [.ident f, .nat n] => idFieldOk f && decide (n = if f.tag = 1#8 then 3 else 1)
  | [.msg f] => msgFieldOk P f
  | _ => false

/-- R61, R70, R206: results exactly with OK; a detail exactly with InvalidData (offset 0, R200) and InvalidManufacturer (one
byte or three, R200); never UnknownKind (R201). -/
def responseOk (P : Params) (r : Response) : Bool :=
  match r.results with
  | some fs => decide (r.status = 0x00#8) && decide (r.detail = .none) && resultsOk P fs
  | none =>
    match r.detail with
    | .none => decide (r.status = 0x01#8) || decide (r.status = 0x80#8) || decide (r.status = 0x81#8) || decide (r.status = 0x82#8)
    | .offset n => decide (r.status = 0x02#8) && decide (n = 0)
    | .bytes xs => decide (r.status = 0x03#8) && (decide (xs.length = 1) || decide (xs.length = 3))

/-- The parameters are as 00_scope.md R5 allows, and every delivered response is well-formed. -/
def safeState (s : State) : Bool := s.params.legal && s.responses.all (responseOk s.params)

end Sys2Proof
end

