-- ==== Sys2Proof/Certificates/Slice0/Obligations.lean ====
section
/-! DEFINITION. The statements about the block, from the numbered rules of spec/. -/

namespace Sys2Proof

open Sys2Proof.Machine

/-! ## Words the statements are written in -/

/-- `i`, executed at `s`, answers exactly the response `r`: the next state is `s` with `r` delivered after every earlier
response and no request in service. Parameters, reset input, queue and earlier responses are as before: this is the frame of
every instruction (10_state.md R20, R33; 60_exceptions.md R206). -/
def Answers (i : Instr) (s : State) (r : Response) : Prop :=
  exec i s = .next { s with current := none, responses := s.responses ++ [r] }

/-- The same of the step that serves the request `q`. -/
def Serves (q : Request) (s : State) (r : Response) : Prop :=
  s.resetLine = false → s.current = some q →
    step s = .next { s with current := none, responses := s.responses ++ [r] }

/-- R61, R70: OK (0x00), no detail, the result fields. -/
def okFields (fs : List Field) : Response := { status := 0x00#8, detail := .none, results := some fs }

/-- R61, R206: an error status and its detail, and no result fields. -/
def failed (status : Byte) (d : Detail) : Response := { status := status, detail := d, results := none }

/-- R25, R62: a Pos that the field width `POS_W` carries; every integer where there is no such width. -/
def PosOk (s : State) (p : Int) : Prop := ∀ w, s.params.posW = some w → -(2 ^ (w - 1)) ≤ p ∧ p < 2 ^ (w - 1)

/-- R204: a length that is not above `MAX_SEQ_LEN`; every length where it is unbounded. -/
def LenOk (s : State) (n : Nat) : Prop := ∀ m, s.params.maxSeqLen = some m → n ≤ m

/-- R68: the fourteen opcodes. -/
def opcodes : List Nat := [0x01, 0x02, 0x03, 0x04, 0x05, 0x06, 0x07, 0x08, 0x10, 0x11, 0x20, 0x21, 0x30, 0x31]

/-- R63, R68: the kinds of the operand fields that each opcode selects. -/
def operandKinds : List (Nat × List FieldKind) :=
  [(0x01, [.byte, .pos]), (0x02, [.byte, .pos]), (0x03, [.byte, .pos]), (0x04, [.byte]), (0x05, [.byte, .byte]),
   (0x06, [.byte, .pos, .pos, .byte]), (0x07, [.byte]), (0x08, [.bits]), (0x10, [.seq]), (0x11, [.seq]), (0x20, [.ident]),
   (0x21, [.seq]), (0x30, [.seq]), (0x31, [.msg])]

/-- The position and range-bound operands of an instruction (R63). -/
def positions : Instr → List Int
  | .bitGet _ p => [p]
  | .bitSet _ p => [p]
  | .bitClear _ p => [p]
  | .bitRangeReplace _ lo hi _ => [lo, hi]
  | _ => []

/-- The lengths of the sequence operands of an instruction (R63, R204). -/
def operandLengths : Instr → List Nat
  | .byteOfBits xs => [xs.length]
  | .pack7bit xs => [xs.length]
  | .unpack7bit xs => [xs.length]
  | .mfgIdUnpack xs => [xs.length]
  | .sysexParse xs => [xs.length]
  | .sysexEncode f => [f.payload.length]
  | _ => []

/-- R28: an Identifier field whose identifier is encodable. -/
def EncodableField (f : IdField) : Prop :=
  (f.tag = 0#8 ∧ f.b0 ≠ 0x00#8 ∧ f.b0 ≠ 0x7D#8 ∧ f.b0 ≠ 0x7E#8 ∧ f.b0 ≠ 0x7F#8) ∨ (f.tag = 1#8 ∧ f.b0 = 0x00#8) ∨ f.tag = 2#8

/-- R160: the wire bytes of an encodable Identifier field. -/
def idBytes (f : IdField) : ByteSeq :=
  if f.tag = 0#8 then [f.b0] else if f.tag = 1#8 then [0x00#8, f.b1, f.b2] else [0x7D#8]

/-- R200: the detail of InvalidManufacturer for an Identifier field that is not encodable. -/
def offendingBytes (f : IdField) : ByteSeq := if f.tag = 0#8 then [f.b0] else [f.b0, f.b1, f.b2]

/-- R66: `standard(b)`, `extended(0x00, b1, b2)` and `development` as they leave the block. -/
def standardField (b : Byte) : IdField := { tag := 0#8, b0 := b, b1 := 0#8, b2 := 0#8 }
def extendedField (b1 b2 : Byte) : IdField := { tag := 1#8, b0 := 0x00#8, b1 := b1, b2 := b2 }
def developmentField : IdField := { tag := 2#8, b0 := 0#8, b1 := 0#8, b2 := 0#8 }

/-- R67: `manufacturerSpecific(id, p)` as it leaves the block. -/
def manufacturerField (id : IdField) (p : ByteSeq) : MsgField :=
  { tag := 2#8, dc := 0#8, s1 := 0#8, s2 := 0#8, id := id, payload := p }

/-- R67: `universal(kind, (dc, s1, s2), p)` as it leaves the block, with `msg_tag` 0 or 1. -/
def universalField (tag dc s1 s2 : Byte) (p : ByteSeq) : MsgField :=
  { tag := tag, dc := dc, s1 := s1, s2 := s2, id := standardField 0#8, payload := p }

/-- R205: the statuses each operation can return. -/
def allowedStatuses : Instr → List Byte
  | .bitGet _ _ => [0x00#8, 0x81#8]
  | .bitSet _ _ => [0x00#8, 0x81#8]
  | .bitClear _ _ => [0x00#8, 0x81#8]
  | .nybbleSplit _ => [0x00#8, 0x81#8]
  | .nybbleJoin _ _ => [0x00#8, 0x81#8]
  | .bitRangeReplace _ _ _ _ => [0x00#8, 0x81#8]
  | .bitsOfByte _ => [0x00#8, 0x81#8]
  | .byteOfBits _ => [0x00#8, 0x81#8, 0x82#8]
  | .pack7bit _ => [0x00#8, 0x81#8, 0x82#8]
  | .unpack7bit _ => [0x00#8, 0x81#8, 0x82#8]
  | .mfgIdPack _ => [0x00#8, 0x03#8, 0x81#8]
  | .mfgIdUnpack _ => [0x00#8, 0x02#8, 0x03#8, 0x81#8, 0x82#8]
  | .sysexParse _ => [0x00#8, 0x01#8, 0x02#8, 0x81#8, 0x82#8]
  | .sysexEncode _ => [0x00#8, 0x03#8, 0x81#8, 0x82#8]

/-- R63, R80: the type of an operand of a script. -/
def argKind : Arg → FieldKind
  | .byte _ => .byte
  | .pos _ => .pos
  | .bits _ => .bits
  | .bitsRef _ => .bits
  | .seq _ => .seq
  | .ident _ => .ident
  | .msg _ => .msg

/-- Byte `i` of a sequence (used only where it has one). -/
def at' (xs : ByteSeq) (i : Nat) : Byte := xs.getD i 0#8

end Sys2Proof

open Sys2Proof Sys2Proof.Machine

/-! ## The machine -/

/-- R39, R230, R231: after reset no request is in progress and no response is retained, and the decided parameters are at the
block's values. The empty queue, the idle reset input and the two absent bounds are the model's choices (log entries 2, 3, 4). -/
def Obligations.ResetLeavesNoRequestAndNoResponse : Prop :=
  State.reset.current = none ∧ State.reset.responses = [] ∧ State.reset.queue = [] ∧ State.reset.resetLine = false ∧
    State.reset.params.replaceOverflow = .truncate ∧ State.reset.params.unpackHighBit = .assign ∧
    State.reset.params.stdIdHighRegion = .invalid ∧ State.reset.params.posW = none ∧ State.reset.params.maxSeqLen = none

/-- A step runs the request in service: where it decodes to `i`, the step is `exec i`. -/
def Obligations.StepExecutesTheDecodedRequest : Prop :=
  ∀ (s : State) (q : Request) (i : Instr), s.resetLine = false → s.current = some q → decode q = .ok i → step s = exec i s

/-- R202: an `op` outside the map is answered IllegalOp (0x80), whatever its operand fields are. -/
def Obligations.UnassignedOpcodeAnswersIllegalOp : Prop :=
  ∀ (s : State) (q : Request), q.op.toNat ∉ opcodes → Serves q s (failed 0x80#8 .none)

/-- R60, R63, R203: operand fields that are not of the format their `op` selects, among them a value the wire layout could not
carry, are answered IllegalOperand (0x81). For a list of the wrong fields it is the model's choice (log entry 5). -/
def Obligations.WrongOperandFieldsAnswerIllegalOperand : Prop :=
  ∀ (s : State) (q : Request) (ks : List FieldKind), (q.op.toNat, ks) ∈ operandKinds →
    q.operands.map Field.kind ≠ ks.map some → Serves q s (failed 0x81#8 .none)

/-- R53: with no request in service the request issued first is accepted, and with none issued nothing changes (log entry 3). -/
def Obligations.OldestRequestIsAccepted : Prop :=
  ∀ s : State, s.resetLine = false → s.current = none →
    (∀ q rest, s.queue = q :: rest → step s = .next { s with current := some q, queue := rest }) ∧
    (s.queue = [] → step s = .next s)

/-- R230: a reset abandons the request in service with no response; after it the block accepts the next request at once; and a
request issued again gets the response it would have got. The model's choices: that a reset keeps the queue and the delivered
responses, and so changes nothing else (log entry 3), and that it takes effect at the next step (log entry 4). -/
def Obligations.ResetAbandonsTheRequestInService : Prop :=
  ∀ s : State, s.resetLine = true →
    step s = .next { s with resetLine := false, current := none } ∧
    (∀ q rest, s.queue = q :: rest →
      step { s with resetLine := false, current := none } =
        .next { s with resetLine := false, current := some q, queue := rest }) ∧
    (∀ q r (t : State), s.current = some q → t.params = s.params → Serves q { s with resetLine := false } r → Serves q t r)

/-- R217: every request in service gets exactly one response: OK with results, or one error status without. -/
def Obligations.EveryRequestGetsExactlyOneResponse : Prop :=
  ∀ (s : State) (q : Request), s.resetLine = false → s.current = some q →
    ∃ r : Response, step s = .next { s with current := none, responses := s.responses ++ [r] } ∧
      ((r.status = 0x00#8 ∧ r.detail = .none ∧ r.results.isSome = true) ∨
       (r.status ∈ [0x01#8, 0x02#8, 0x03#8, 0x80#8, 0x81#8, 0x82#8] ∧ r.results = none))

/-- R46, R20: the response is a function of the request and the build-time parameters alone. -/
def Obligations.ResponseDependsOnTheRequestAlone : Prop :=
  ∃ f : Params → Request → Response, ∀ (s : State) (q : Request), Serves q s (f s.params q)

/-- R53, R47: from a state with no request in service, the block serves all its queue, and the responses come in the order of the
requests, each a function of its own request. The model's choice (log entry 3): the queue itself, and that a request takes two
steps, one to accept it and one to serve it. -/
def Obligations.QueueIsServedInOrder : Prop :=
  ∃ f : Params → Request → Response, (∀ (s : State) (q : Request), Serves q s (f s.params q)) ∧
    ∀ s : State, s.resetLine = false → s.current = none →
      core.run (2 * s.queue.length) s = .next { s with queue := [], responses := s.responses ++ s.queue.map (f s.params) }

/-- R201: status 0x04 is UnknownKind's code, and no step delivers it. -/
def Obligations.UnknownKindIsNeverReturned : Prop :=
  statusCode .unknownKind = 0x04#8 ∧
    ∀ s t : State, step s = .next t → ∀ r ∈ t.responses, r.status = 0x04#8 → r ∈ s.responses

/-- R37, R39: no step changes a parameter. -/
def Obligations.NoStepChangesAParameter : Prop := ∀ s t : State, step s = .next t → t.params = s.params

/-- R217, 93_implementation_defined.md: every step of every state has a next state. -/
def Obligations.EveryStepHasANextState : Prop := ∀ s : State, ∃ t : State, step s = .next t

/-- R61, R64, R66, R67, R70, R163 (d), R204: every step keeps a state safe. That `MAX_SEQ_LEN` bounds the payload of a Message is
the model's reading (log entry 8). -/
def Obligations.StepKeepsResponsesWellFormed : Prop :=
  ∀ s t : State, safeState s = true → step s = .next t → safeState t = true

/-- The state after reset is safe. -/
def Obligations.ResetStateIsSafe : Prop := safeState State.reset = true

/-! ## Encoding -/

/-- R60, R63, R68, R69: decoding is exactly the inverse of encoding, and it fails with IllegalOp exactly for an `op` outside the
map. The model's choice (log entry 5): a list of operand fields that is not of the op's format fails with IllegalOperand. -/
def Obligations.DecodeInvertsEncodeAndRejectsTheRest : Prop :=
  (∀ (q : Request) (i : Instr), decode q = .ok i ↔ q = encode i) ∧
  (∀ q : Request, decode q = .error .illegalOp ↔ q.op.toNat ∉ opcodes) ∧
  (∀ q : Request, decode q = .error .illegalOperand ↔
    ∃ ks, (q.op.toNat, ks) ∈ operandKinds ∧ q.operands.map Field.kind ≠ ks.map some)

/-- R68, R63, R85: some requests as the spec writes them, and the instructions they stand for. -/
def Obligations.SpecRequestsDecode : Prop :=
  decode { op := 0x01#8, operands := [.byte 0x80#8, .pos 7] } = .ok (.bitGet 0x80#8 7) ∧
  decode { op := 0x06#8, operands := [.byte 0xBC#8, .pos 0, .pos 3, .byte 0x05#8] } = .ok (.bitRangeReplace 0xBC#8 0 3 0x05#8) ∧
  decode { op := 0x11#8, operands := [.seq [0x09#8, 0x40#8]] } = .ok (.unpack7bit [0x09#8, 0x40#8]) ∧
  decode { op := 0x21#8, operands := [.seq [0x40#8]] } = .ok (.mfgIdUnpack [0x40#8]) ∧
  decode { op := 0x31#8, operands := [.msg (manufacturerField (extendedField 0x20#8 0x29#8) [0x09#8])] } =
    .ok (.sysexEncode (manufacturerField (extendedField 0x20#8 0x29#8) [0x09#8]))

/-! ## Bit and nybble primitives -/

/-- R100. -/
def Obligations.BitGetReadsTheBit : Prop :=
  ∀ (b : Byte) (p : Int) (s : State),
    encode (.bitGet b p) = { op := 0x01#8, operands := [.byte b, .pos p] } ∧
    (PosOk s p → Answers (.bitGet b p) s
      (okFields [.byte (if (0 ≤ p ∧ p ≤ 7) ∧ b.toNat / 2 ^ p.toNat % 2 = 1 then 1#8 else 0#8)]))

/-- R101. -/
def Obligations.BitSetSetsTheBit : Prop :=
  ∀ (b : Byte) (p : Int) (s : State),
    encode (.bitSet b p) = { op := 0x02#8, operands := [.byte b, .pos p] } ∧
    (PosOk s p → ∃ r : Byte, Answers (.bitSet b p) s (okFields [.byte r]) ∧
      ∀ k : Nat, k < 8 → r.getLsbD k = (b.getLsbD k || decide ((k : Int) = p)))

/-- R102. -/
def Obligations.BitClearClearsTheBit : Prop :=
  ∀ (b : Byte) (p : Int) (s : State),
    encode (.bitClear b p) = { op := 0x03#8, operands := [.byte b, .pos p] } ∧
    (PosOk s p → ∃ r : Byte, Answers (.bitClear b p) s (okFields [.byte r]) ∧
      ∀ k : Nat, k < 8 → r.getLsbD k = (b.getLsbD k && !decide ((k : Int) = p)))

/-- R103. -/
def Obligations.NybbleSplitGivesTheTwoNybbles : Prop :=
  ∀ (b : Byte) (s : State),
    encode (.nybbleSplit b) = { op := 0x04#8, operands := [.byte b] } ∧
    ∃ high low : Byte, Answers (.nybbleSplit b) s (okFields [.byte high, .byte low]) ∧
      high.toNat = b.toNat / 16 ∧ low.toNat = b.toNat % 16

/-- R104: the result for masked operands, and for every other. -/
def Obligations.NybbleJoinJoinsTheNybbles : Prop :=
  ∀ (high low : Byte) (s : State),
    encode (.nybbleJoin high low) = { op := 0x05#8, operands := [.byte high, .byte low] } ∧
    ∃ r : Byte, Answers (.nybbleJoin high low) s (okFields [.byte r]) ∧
      (∀ k < 8, r.getLsbD k = (low.getLsbD k || (decide (4 ≤ k) && high.getLsbD (k - 4)))) ∧
      (high.toNat ≤ 15 → low.toNat ≤ 15 → r.toNat = 16 * high.toNat + low.toNat)

/-- R105: a valid range `lo..hi` receives the low bits of `v`, and every other position keeps `b`'s; an invalid range changes
nothing. -/
def Obligations.BitRangeReplaceWritesTheRange : Prop :=
  ∀ (b : Byte) (lo hi : Int) (v : Byte) (s : State),
    encode (.bitRangeReplace b lo hi v) = { op := 0x06#8, operands := [.byte b, .pos lo, .pos hi, .byte v] } ∧
    (PosOk s lo → PosOk s hi → ∃ r : Byte, Answers (.bitRangeReplace b lo hi v) s (okFields [.byte r]) ∧
      (0 ≤ lo ∧ lo ≤ hi ∧ hi ≤ 7 → ∀ k : Nat, k < 8 →
        r.getLsbD k = if lo ≤ k ∧ (k : Int) ≤ hi then v.getLsbD (k - lo.toNat) else b.getLsbD k) ∧
      (¬ (0 ≤ lo ∧ lo ≤ hi ∧ hi ≤ 7) → r = b))

/-- R107. -/
def Obligations.BitsOfByteListsTheBits : Prop :=
  ∀ (b : Byte) (s : State),
    encode (.bitsOfByte b) = { op := 0x07#8, operands := [.byte b] } ∧
    (LenOk s 8 → ∃ xs : List Byte, Answers (.bitsOfByte b) s (okFields [.bits xs]) ∧ xs.length = 8 ∧
      ∀ k < 8, xs[k]? = some (if b.getLsbD k then 1#8 else 0#8))

/-- R108: bit `k` is element `k`; missing elements are 0 and elements beyond the eighth are ignored; an element that is no Bit is
an IllegalOperand. -/
def Obligations.ByteOfBitsCollectsTheBits : Prop :=
  ∀ (xs : List Byte) (s : State),
    encode (.byteOfBits xs) = { op := 0x08#8, operands := [.bits xs] } ∧
    ((∀ x ∈ xs, x = 0#8 ∨ x = 1#8) → LenOk s xs.length →
      ∃ r : Byte, Answers (.byteOfBits xs) s (okFields [.byte r]) ∧ ∀ k < 8, r.getLsbD k = decide (xs[k]? = some 1#8)) ∧
    ((∃ x ∈ xs, x ≠ 0#8 ∧ x ≠ 1#8) → Answers (.byteOfBits xs) s (failed 0x81#8 .none))

/-- R109: the laws (a) to (f) of the family. -/
def Obligations.BitAndNybbleLaws : Prop :=
  (∀ b s xs, Answers (.bitsOfByte b) s (okFields [.bits xs]) →
    ∀ t, LenOk t 8 → Answers (.byteOfBits xs) t (okFields [.byte b])) ∧
  (∀ b s high low, Answers (.nybbleSplit b) s (okFields [.byte high, .byte low]) →
    ∀ t, Answers (.nybbleJoin high low) t (okFields [.byte b])) ∧
  (∀ b (p : Int) s r, 0 ≤ p → p ≤ 7 → Answers (.bitSet b p) s (okFields [.byte r]) →
    (∀ t, PosOk t p → Answers (.bitGet r p) t (okFields [.byte 1#8])) ∧
      ∀ k : Nat, k < 8 → (k : Int) ≠ p → r.getLsbD k = b.getLsbD k) ∧
  (∀ b (p : Int) s r, 0 ≤ p → p ≤ 7 → Answers (.bitClear b p) s (okFields [.byte r]) →
    (∀ t, PosOk t p → Answers (.bitGet r p) t (okFields [.byte 0#8])) ∧
      ∀ k : Nat, k < 8 → (k : Int) ≠ p → r.getLsbD k = b.getLsbD k) ∧
  (∀ b (p : Int) s, (p < 0 ∨ 7 < p) → PosOk s p →
    Answers (.bitSet b p) s (okFields [.byte b]) ∧ Answers (.bitClear b p) s (okFields [.byte b]) ∧
      Answers (.bitGet b p) s (okFields [.byte 0#8])) ∧
  (∀ b (lo hi : Int) v s r, Answers (.bitRangeReplace b lo hi v) s (okFields [.byte r]) →
    ∀ k : Nat, k < 8 → ¬ (lo ≤ (k : Int) ∧ (k : Int) ≤ hi) → r.getLsbD k = b.getLsbD k) ∧
  (∀ xs s b, xs.length ≤ 8 → Answers (.byteOfBits xs) s (okFields [.byte b]) →
    ∀ t, LenOk t 8 → Answers (.bitsOfByte b) t (okFields [.bits (xs ++ List.replicate (8 - xs.length) 0#8)]))

/-! ## Packer and unpacker -/

/-- R10: for `n >= 1` the groups are consecutive, each of `n` elements but the last, which has `1..n`; the empty sequence has
none. -/
def Obligations.ChunkSplitsIntoConsecutiveGroups : Prop :=
  ∀ (xs : ByteSeq) (n : Nat), 1 ≤ n →
    (chunk xs n).flatten = xs ∧ (∀ g ∈ (chunk xs n).dropLast, g.length = n) ∧
      (∀ g ∈ chunk xs n, 1 ≤ g.length ∧ g.length ≤ n) ∧ chunk [] n = []

/-- R140: byte `i` stands, masked, in group `i / 7` after its index byte, whose bit `j` is bit 7 of the group's `j`-th byte. -/
def Obligations.PackEmitsIndexAndMaskedBytes : Prop :=
  ∀ (xs : ByteSeq) (s : State),
    encode (.pack7bit xs) = { op := 0x10#8, operands := [.seq xs] } ∧
    (LenOk s (xs.length + (xs.length + 6) / 7) → ∃ r : ByteSeq, Answers (.pack7bit xs) s (okFields [.seq r]) ∧
      r.length = xs.length + (xs.length + 6) / 7 ∧
      (∀ i < xs.length, r[8 * (i / 7) + 1 + i % 7]? = some (at' xs i &&& 0x7F#8)) ∧
      (∀ g < (xs.length + 6) / 7, ∃ idx : Byte, r[8 * g]? = some idx ∧
        ∀ j < 8, idx.getLsbD j = true ↔ (j < 7 ∧ 7 * g + j < xs.length ∧ (at' xs (7 * g + j)).getLsbD 7 = true)))

/-- R141, with `UNPACK_HIGH_BIT = assign`, the block's value: result byte `j` is the `j % 7`-th data byte of group `j / 7` with
bit 7 replaced by bit `j % 7` of the group's index byte. -/
def Obligations.UnpackAssignsTheHighBit : Prop :=
  ∀ (w : ByteSeq) (s : State),
    encode (.unpack7bit w) = { op := 0x11#8, operands := [.seq w] } ∧
    (s.params.unpackHighBit = .assign → LenOk s w.length →
      ∃ r : ByteSeq, Answers (.unpack7bit w) s (okFields [.seq r]) ∧ r.length = w.length - (w.length + 7) / 8 ∧
        ∀ j < r.length, ∃ d : Byte, r[j]? = some d ∧
          (∀ k < 7, d.getLsbD k = (at' w (8 * (j / 7) + 1 + j % 7)).getLsbD k) ∧
          d.getLsbD 7 = (at' w (8 * (j / 7))).getLsbD (j % 7))

/-- 92_eei_decisions.md D14: under the alternative `UNPACK_HIGH_BIT = or`, which this block does not take, bit 7 of the data byte
is ORed in. -/
def Obligations.UnpackOrsTheHighBitUnderTheAlternative : Prop :=
  ∀ (w : ByteSeq) (s : State), s.params.unpackHighBit = .or → LenOk s w.length →
    ∃ r : ByteSeq, Answers (.unpack7bit w) s (okFields [.seq r]) ∧ r.length = w.length - (w.length + 7) / 8 ∧
      ∀ j < r.length, ∃ d : Byte, r[j]? = some d ∧
        (∀ k < 7, d.getLsbD k = (at' w (8 * (j / 7) + 1 + j % 7)).getLsbD k) ∧
        d.getLsbD 7 = ((at' w (8 * (j / 7) + 1 + j % 7)).getLsbD 7 || (at' w (8 * (j / 7))).getLsbD (j % 7))

/-- R142: unpacking what packing gave gives the operand back, under either value of `UNPACK_HIGH_BIT`. -/
def Obligations.UnpackInvertsPack : Prop :=
  ∀ (xs : ByteSeq) (s : State) (r : ByteSeq), Answers (.pack7bit xs) s (okFields [.seq r]) →
    ∀ t : State, LenOk t r.length → Answers (.unpack7bit r) t (okFields [.seq xs])

/-- R143: packing what unpacking gave gives the operand back exactly for wire data that packing can emit. -/
def Obligations.PackInvertsUnpackOnlyOnPackedData : Prop :=
  (∀ (w : ByteSeq) (s : State) (r : ByteSeq), s.params.unpackHighBit = .assign →
    Answers (.unpack7bit w) s (okFields [.seq r]) → ∀ t : State, LenOk t w.length →
      (Answers (.pack7bit r) t (okFields [.seq w]) ↔
        w.length % 8 ≠ 1 ∧
        (∀ i < w.length, i % 8 ≠ 0 → (at' w i).toNat ≤ 0x7F) ∧
        (∀ i < w.length, i % 8 = 0 → ∀ j < 8, (j = 7 ∨ w.length ≤ i + 1 + j) → (at' w i).getLsbD j = false))) ∧
  (∀ s : State, s.params.unpackHighBit = .assign → LenOk s 2 →
    Answers (.unpack7bit [0xFF#8, 0x01#8]) s (okFields [.seq [0x81#8]]) ∧
    Answers (.pack7bit [0x81#8]) s (okFields [.seq [0x01#8, 0x01#8]]))

/-! ## Manufacturer identifier codec -/

/-- R160: the wire bytes of an encodable identifier, the refusal of any other, and the reserved tags. Sub-fields that a form does
not use do not matter (R66). -/
def Obligations.IdentifierPackGivesWireBytes : Prop :=
  ∀ (f : IdField) (s : State),
    encode (.mfgIdPack f) = { op := 0x20#8, operands := [.ident f] } ∧
    (EncodableField f → LenOk s 3 → Answers (.mfgIdPack f) s (okFields [.seq (idBytes f)])) ∧
    (f.tag.toNat ≤ 2 → ¬ EncodableField f → Answers (.mfgIdPack f) s (failed 0x03#8 (.bytes (offendingBytes f)))) ∧
    (3 ≤ f.tag.toNat → Answers (.mfgIdPack f) s (failed 0x81#8 .none))

/-- R162 and the table of R161, under both values of `STD_ID_HIGH_REGION`. -/
def Obligations.IdentifierUnpackClassifiesTheLeadByte : Prop :=
  (∀ xs : ByteSeq, encode (.mfgIdUnpack xs) = { op := 0x21#8, operands := [.seq xs] }) ∧
  (∀ s : State, Answers (.mfgIdUnpack []) s (failed 0x02#8 (.offset 0))) ∧
  ∀ (a : Byte) (rest : ByteSeq) (s : State), LenOk s (a :: rest).length →
    (a = 0x00#8 → rest.length < 2 → Answers (.mfgIdUnpack (a :: rest)) s (failed 0x02#8 (.offset 0))) ∧
    (a = 0x00#8 → 2 ≤ rest.length →
      Answers (.mfgIdUnpack (a :: rest)) s (okFields [.ident (extendedField (at' rest 0) (at' rest 1)), .nat 3])) ∧
    (1 ≤ a.toNat → a.toNat ≤ 0x5F →
      Answers (.mfgIdUnpack (a :: rest)) s (okFields [.ident (standardField a), .nat 1])) ∧
    (0x61 ≤ a.toNat → a.toNat ≤ 0x7C → s.params.stdIdHighRegion = .standard →
      Answers (.mfgIdUnpack (a :: rest)) s (okFields [.ident (standardField a), .nat 1])) ∧
    (0x61 ≤ a.toNat → a.toNat ≤ 0x7C → s.params.stdIdHighRegion = .invalid →
      Answers (.mfgIdUnpack (a :: rest)) s (failed 0x03#8 (.bytes [a]))) ∧
    (a = 0x7D#8 → Answers (.mfgIdUnpack (a :: rest)) s (okFields [.ident developmentField, .nat 1])) ∧
    (a = 0x60#8 ∨ a = 0x7E#8 ∨ a = 0x7F#8 ∨ 0x80 ≤ a.toNat →
      Answers (.mfgIdUnpack (a :: rest)) s (failed 0x03#8 (.bytes [a])))

/-- R163: the laws (a) to (d) of the codec. -/
def Obligations.IdentifierCodecLaws : Prop :=
  (∀ xs s f n, Answers (.mfgIdUnpack xs) s (okFields [.ident f, .nat n]) →
    ∀ t : State, LenOk t 3 → Answers (.mfgIdPack f) t (okFields [.seq (xs.take n)])) ∧
  (∀ xs s f n r t, Answers (.mfgIdUnpack xs) s (okFields [.ident f, .nat n]) →
    Answers (.mfgIdPack f) t (okFields [.seq r]) → ∀ u : State, u.params.stdIdHighRegion = s.params.stdIdHighRegion →
      LenOk u r.length → Answers (.mfgIdUnpack r) u (okFields [.ident f, .nat r.length])) ∧
  (∀ (b : Byte) (s : State), LenOk s 3 →
    (b = 0x60#8 ∨ 0x80 ≤ b.toNat ∨ (0x61 ≤ b.toNat ∧ b.toNat ≤ 0x7C ∧ s.params.stdIdHighRegion = .invalid)) →
    Answers (.mfgIdPack (standardField b)) s (okFields [.seq [b]]) ∧
      Answers (.mfgIdUnpack [b]) s (failed 0x03#8 (.bytes [b]))) ∧
  (∀ i s fs, Answers i s (okFields fs) →
    (∀ f, Field.ident f ∈ fs → EncodableField f) ∧ (∀ m, Field.msg m ∈ fs → m.tag = 2#8 → EncodableField m.id))

/-! ## Frame parser and encoder -/

/-- R180, R181: the checks in their order, and each class of byte 1 with its slices. -/
def Obligations.SysexParseChecksAndClassifies : Prop :=
  (∀ xs : ByteSeq, encode (.sysexParse xs) = { op := 0x30#8, operands := [.seq xs] }) ∧
  (∀ (xs : ByteSeq) (s : State), LenOk s xs.length →
    (xs.length < 5 → Answers (.sysexParse xs) s (failed 0x02#8 (.offset 0))) ∧
    (5 ≤ xs.length → at' xs 0 ≠ 0xF0#8 → Answers (.sysexParse xs) s (failed 0x01#8 .none)) ∧
    (5 ≤ xs.length → at' xs (xs.length - 1) ≠ 0xF7#8 → Answers (.sysexParse xs) s (failed 0x01#8 .none)) ∧
    (xs.length = 5 → at' xs 0 = 0xF0#8 → at' xs 4 = 0xF7#8 → at' xs 1 = 0x7E#8 ∨ at' xs 1 = 0x7F#8 →
      Answers (.sysexParse xs) s (failed 0x02#8 (.offset 0)))) ∧
  (∀ (dc s1 s2 : Byte) (p : ByteSeq) (s : State), LenOk s (6 + p.length) →
    Answers (.sysexParse ([0xF0#8, 0x7E#8, dc, s1, s2] ++ p ++ [0xF7#8])) s
      (okFields [.msg (universalField 0#8 dc s1 s2 p)]) ∧
    Answers (.sysexParse ([0xF0#8, 0x7F#8, dc, s1, s2] ++ p ++ [0xF7#8])) s
      (okFields [.msg (universalField 1#8 dc s1 s2 p)])) ∧
  (∀ (b1 b2 : Byte) (p : ByteSeq) (s : State), LenOk s (5 + p.length) →
    Answers (.sysexParse ([0xF0#8, 0x00#8, b1, b2] ++ p ++ [0xF7#8])) s
      (okFields [.msg (manufacturerField (extendedField b1 b2) p)])) ∧
  (∀ (p : ByteSeq) (s : State), 2 ≤ p.length → LenOk s (3 + p.length) →
    Answers (.sysexParse ([0xF0#8, 0x7D#8] ++ p ++ [0xF7#8])) s
      (okFields [.msg (manufacturerField developmentField p)])) ∧
  (∀ (a : Byte) (p : ByteSeq) (s : State), a ≠ 0x00#8 → a ≠ 0x7D#8 → a ≠ 0x7E#8 → a ≠ 0x7F#8 → 2 ≤ p.length →
    LenOk s (3 + p.length) →
    Answers (.sysexParse ([0xF0#8, a] ++ p ++ [0xF7#8])) s (okFields [.msg (manufacturerField (standardField a) p)]))

/-- R182: whether and how parsing fails depends on the length, byte 0, byte 1 and the last byte alone. -/
def Obligations.InteriorBytesAreNotChecked : Prop :=
  ∀ (xs ys : ByteSeq) (s : State) (st : Byte) (d : Detail), xs.length = ys.length → at' xs 0 = at' ys 0 → at' xs 1 = at' ys 1 →
    at' xs (xs.length - 1) = at' ys (ys.length - 1) →
    Answers (.sysexParse xs) s (failed st d) → Answers (.sysexParse ys) s (failed st d)

/-- R185: the frame of a message, the refusal of an identifier that is not encodable, and the reserved tags; an unused `id` is not
checked (R67). -/
def Obligations.SysexEncodeEmitsTheFrame : Prop :=
  ∀ (f : MsgField) (s : State),
    encode (.sysexEncode f) = { op := 0x31#8, operands := [.msg f] } ∧
    (f.tag = 0#8 → LenOk s (6 + f.payload.length) →
      Answers (.sysexEncode f) s (okFields [.seq ([0xF0#8, 0x7E#8, f.dc, f.s1, f.s2] ++ f.payload ++ [0xF7#8])])) ∧
    (f.tag = 1#8 → LenOk s (6 + f.payload.length) →
      Answers (.sysexEncode f) s (okFields [.seq ([0xF0#8, 0x7F#8, f.dc, f.s1, f.s2] ++ f.payload ++ [0xF7#8])])) ∧
    (f.tag = 2#8 → EncodableField f.id → LenOk s (2 + (idBytes f.id).length + f.payload.length) →
      Answers (.sysexEncode f) s (okFields [.seq ([0xF0#8] ++ idBytes f.id ++ f.payload ++ [0xF7#8])])) ∧
    (f.tag = 2#8 → f.id.tag.toNat ≤ 2 → ¬ EncodableField f.id → LenOk s f.payload.length →
      Answers (.sysexEncode f) s (failed 0x03#8 (.bytes (offendingBytes f.id)))) ∧
    (3 ≤ f.tag.toNat ∨ (f.tag = 2#8 ∧ 3 ≤ f.id.tag.toNat) → Answers (.sysexEncode f) s (failed 0x81#8 .none))

/-- R186: a standard or development message with a payload of fewer than 2 bytes is encoded, to a frame that parsing rejects. -/
def Obligations.ShortFramesAreEncodedAndRejected : Prop :=
  ∀ (f : IdField) (p : ByteSeq) (s : State), EncodableField f → f.tag ≠ 1#8 → p.length < 2 → LenOk s 5 →
    ∃ r : ByteSeq, Answers (.sysexEncode (manufacturerField f p)) s (okFields [.seq r]) ∧ (r.length = 3 ∨ r.length = 4) ∧
      Answers (.sysexParse r) s (failed 0x02#8 (.offset 0))

/-- R187: encoding what parsing gave gives the frame back. -/
def Obligations.EncodeInvertsParse : Prop :=
  ∀ (xs : ByteSeq) (s : State) (f : MsgField), Answers (.sysexParse xs) s (okFields [.msg f]) →
    ∀ t : State, LenOk t xs.length → Answers (.sysexEncode f) t (okFields [.seq xs])

/-- R188: parsing what encoding gave gives the message back, unless it is one of the short messages of R186. -/
def Obligations.ParseInvertsEncodeOfLongMessages : Prop :=
  ∀ (f : MsgField) (s : State) (r : ByteSeq), Answers (.sysexEncode f) s (okFields [.seq r]) →
    ¬ (f.tag = 2#8 ∧ f.id.tag ≠ 1#8 ∧ f.payload.length < 2) →
    ∀ t : State, LenOk t r.length →
      ∃ g : MsgField, Answers (.sysexParse r) t (okFields [.msg g]) ∧ msgOfField g = msgOfField f

/-! ## Errors -/

/-- R203: an instruction is answered IllegalOperand exactly where a field holds a value outside its type's domain, or a Pos that
`POS_W` cannot carry. That `POS_W` of w carries -2^(w-1) to 2^(w-1) - 1 is the model's reading of "signed" (log entry 2). -/
def Obligations.IllegalOperandExactlyOutsideTheDomain : Prop :=
  ∀ (i : Instr) (s : State),
    Answers i s (failed 0x81#8 .none) ↔ (i.wellFormed = false ∨ ∃ p ∈ positions i, ¬ PosOk s p)

/-- R204: Capacity for an operand sequence above `MAX_SEQ_LEN`, for a packed result or a frame above it, and never where it is
unbounded. That the payload of a Message operand counts as an operand sequence is the model's reading (log entry 8). -/
def Obligations.CapacityForSequencesAboveTheBound : Prop :=
  (∀ (i : Instr) (s : State), i.wellFormed = true → (∀ p ∈ positions i, PosOk s p) → (∃ n ∈ operandLengths i, ¬ LenOk s n) →
    Answers i s (failed 0x82#8 .none)) ∧
  (∀ (xs : ByteSeq) (s : State), LenOk s xs.length → ¬ LenOk s (xs.length + (xs.length + 6) / 7) →
    Answers (.pack7bit xs) s (failed 0x82#8 .none)) ∧
  (∀ (f : MsgField) (s : State), f.tag.toNat ≤ 1 → LenOk s f.payload.length → ¬ LenOk s (6 + f.payload.length) →
    Answers (.sysexEncode f) s (failed 0x82#8 .none)) ∧
  (∀ (f : MsgField) (s : State), f.tag = 2#8 → EncodableField f.id → LenOk s f.payload.length →
    ¬ LenOk s (2 + (idBytes f.id).length + f.payload.length) → Answers (.sysexEncode f) s (failed 0x82#8 .none)) ∧
  (∀ (i : Instr) (s : State) (fs : List Field), s.params.legal = true → Answers i s (okFields fs) →
    ∀ xs, Field.seq xs ∈ fs → LenOk s xs.length) ∧
  (∀ (i : Instr) (s : State), s.params.maxSeqLen = none → ¬ Answers i s (failed 0x82#8 .none))

/-- R205: the statuses each operation can return, for every legal value of the parameters. -/
def Obligations.EachOperationReturnsOnlyItsStatuses : Prop :=
  ∀ (i : Instr) (s : State) (r : Response), s.params.legal = true → Answers i s r → r.status ∈ allowedStatuses i

/-- R207: the order of the errors, where several apply to one request: IllegalOp; IllegalOperand; Capacity for an operand; the
operation's own checks, in the order of its pseudocode; Capacity for the result. The model's readings: which positions `POS_W`
carries (log entry 2), and that the payload of a Message operand counts as an operand sequence (log entry 8). -/
def Obligations.ErrorsAreReportedInTheirOrder : Prop :=
  (∀ (s : State) (q : Request), q.op.toNat ∉ opcodes → Serves q s (failed 0x80#8 .none)) ∧
  (∀ (i : Instr) (s : State), (i.wellFormed = false ∨ ∃ p ∈ positions i, ¬ PosOk s p) → Answers i s (failed 0x81#8 .none)) ∧
  (∀ (i : Instr) (s : State), i.wellFormed = true → (∀ p ∈ positions i, PosOk s p) → (∃ n ∈ operandLengths i, ¬ LenOk s n) →
    Answers i s (failed 0x82#8 .none)) ∧
  (∀ (xs : ByteSeq) (s : State), LenOk s xs.length →
    (xs.length < 5 → Answers (.sysexParse xs) s (failed 0x02#8 (.offset 0))) ∧
    (5 ≤ xs.length → at' xs 0 ≠ 0xF0#8 ∨ at' xs (xs.length - 1) ≠ 0xF7#8 → Answers (.sysexParse xs) s (failed 0x01#8 .none)) ∧
    (xs.length = 5 → at' xs 0 = 0xF0#8 → at' xs 4 = 0xF7#8 → at' xs 1 = 0x7E#8 ∨ at' xs 1 = 0x7F#8 →
      Answers (.sysexParse xs) s (failed 0x02#8 (.offset 0)))) ∧
  (∀ s : State, Answers (.mfgIdUnpack []) s (failed 0x02#8 (.offset 0))) ∧
  (∀ (rest : ByteSeq) (s : State), LenOk s (rest.length + 1) → rest.length < 2 →
    Answers (.mfgIdUnpack (0x00#8 :: rest)) s (failed 0x02#8 (.offset 0))) ∧
  (∀ (f : MsgField) (s : State), f.tag = 2#8 → f.id.tag.toNat ≤ 2 → ¬ EncodableField f.id → LenOk s f.payload.length →
    Answers (.sysexEncode f) s (failed 0x03#8 (.bytes (offendingBytes f.id)))) ∧
  (∀ (f : MsgField) (s : State), f.tag = 2#8 → EncodableField f.id → LenOk s f.payload.length →
    ¬ LenOk s (2 + (idBytes f.id).length + f.payload.length) → Answers (.sysexEncode f) s (failed 0x82#8 .none)) ∧
  (∀ (f : MsgField) (s : State), f.tag.toNat ≤ 1 → LenOk s f.payload.length → ¬ LenOk s (6 + f.payload.length) →
    Answers (.sysexEncode f) s (failed 0x82#8 .none)) ∧
  (∀ (xs : ByteSeq) (s : State), LenOk s xs.length → ¬ LenOk s (xs.length + (xs.length + 6) / 7) →
    Answers (.pack7bit xs) s (failed 0x82#8 .none))

/-! ## Request scripts -/

/-- R84: the lines the host executes. After a label, and after a branch that is not taken, the host stands at the next line; after
a branch that is taken, at a line that carries the label; `halt` and the end of the script end it; and none of these lines touches
the block or a host variable. -/
def Obligations.HostLinesLeaveTheBlock : Prop :=
  ∀ (script : List Line) (y : System), y.host.waiting = none →
    (∀ l, script[y.host.line]? = some (.label l) →
      scriptStep script y = .next { y with host := { y.host with line := y.host.line + 1 } }) ∧
    (∀ lhs eq rhs l, script[y.host.line]? = some (.branch lhs eq rhs l) →
      (evalCond y.host lhs eq rhs = .ok false →
        scriptStep script y = .next { y with host := { y.host with line := y.host.line + 1 } }) ∧
      (evalCond y.host lhs eq rhs = .ok true → Line.label l ∈ script →
        ∃ n, script[n]? = some (.label l) ∧ scriptStep script y = .next { y with host := { y.host with line := n } })) ∧
    (script[y.host.line]? = some .halt → scriptStep script y = .halted) ∧
    (script[y.host.line]? = none → scriptStep script y = .halted) ∧
    (∀ (y' : System) (l : Line), script[y.host.line]? = some l → (∀ b op args, l ≠ .request b op args) →
      (∀ b p args, l ≠ .pseudo b p args) → scriptStep script y = .next y' → y'.block = y.block ∧ y'.host.vars = y.host.vars)

/-- R84: a condition compares a field with `==`, and `!=` is its negation. The spec gives no grammar of a condition: what may stand
on its right, and which fields a number is equal to, is the model's choice (log entry 13). -/
def Obligations.ConditionsCompareFields : Prop :=
  ∀ (h : HostState) (lhs : Path) (f : Field), readPath h lhs = .ok f →
    (∀ st, evalCond h lhs true (.status st) = .ok (decide (f = .byte (statusCode st)))) ∧
    (∀ b : Bool, evalCond h lhs true (.bool b) = .ok (decide (f = .byte (if b then 1#8 else 0#8)))) ∧
    (∀ (n : Int) (b : Byte), f = .byte b → evalCond h lhs true (.num n) = .ok (decide ((b.toNat : Int) = n))) ∧
    (∀ (n : Int) (m : Nat), f = .nat m → evalCond h lhs true (.num n) = .ok (decide ((m : Int) = n))) ∧
    (∀ n p : Int, f = .pos p → evalCond h lhs true (.num n) = .ok (decide (p = n))) ∧
    (∀ n : Int, (∀ b, f ≠ .byte b) → (∀ m, f ≠ .nat m) → (∀ p, f ≠ .pos p) → evalCond h lhs true (.num n) = .ok false) ∧
    (∀ a g, evalArg h a = .ok g → evalCond h lhs true (.arg a) = .ok (decide (f = g))) ∧
    (∀ p g, readPath h p = .ok g → evalCond h lhs true (.ref p) = .ok (decide (f = g))) ∧
    (∀ rhs c, evalCond h lhs true rhs = .ok c → evalCond h lhs false rhs = .ok (!c))

/-- R80: what an operand stands for, and what `<bind>.status`, `<bind>.detail` and `<bind>.<result field>` read. That a variable may
stand for a BitSeq, an Identifier or a Message, or for a byte inside one, is the model's choice (log entry 10), and so is
that the sub-fields a literal does not use are 0 (log entry 17). -/
def Obligations.OperandsHaveTheirValues : Prop :=
  ∀ h : HostState,
    (∀ b, evalArg h (.byte (.lit b)) = .ok (.byte b)) ∧
    (∀ p, evalArg h (.pos p) = .ok (.pos p)) ∧
    (∀ xs, evalArg h (.bits xs) = .ok (.bits xs)) ∧
    (∀ (as : List ByteArg) (bs : ByteSeq), as.length = bs.length →
      (∀ (i : Nat) (a : ByteArg) (b : Byte), as[i]? = some a → bs[i]? = some b → evalArg h (.byte a) = .ok (.byte b)) →
      evalArg h (.seq (.lit as)) = .ok (.seq bs)) ∧
    (∀ a b, evalArg h (.byte a) = .ok (.byte b) → evalArg h (.ident (.standard a)) = .ok (.ident (standardField b))) ∧
    (∀ a0 a1 a2 b0 b1 b2, evalArg h (.byte a0) = .ok (.byte b0) → evalArg h (.byte a1) = .ok (.byte b1) →
      evalArg h (.byte a2) = .ok (.byte b2) →
      evalArg h (.ident (.extended a0 a1 a2)) = .ok (.ident { tag := 1#8, b0 := b0, b1 := b1, b2 := b2 })) ∧
    evalArg h (.ident .development) = .ok (.ident developmentField) ∧
    (∀ a0 a1 a2 b0 b1 b2 p xs, evalArg h (.byte a0) = .ok (.byte b0) → evalArg h (.byte a1) = .ok (.byte b1) →
      evalArg h (.byte a2) = .ok (.byte b2) → evalArg h (.seq p) = .ok (.seq xs) →
      evalArg h (.msg (.universal .nonRealTime a0 a1 a2 p)) = .ok (.msg (universalField 0#8 b0 b1 b2 xs)) ∧
        evalArg h (.msg (.universal .realTime a0 a1 a2 p)) = .ok (.msg (universalField 1#8 b0 b1 b2 xs))) ∧
    (∀ a f p xs, evalArg h (.ident a) = .ok (.ident f) → evalArg h (.seq p) = .ok (.seq xs) →
      evalArg h (.msg (.manufacturerSpecific a p)) = .ok (.msg (manufacturerField f xs))) ∧
    (∀ p b, readPath h p = .ok (.byte b) → evalArg h (.byte (.ref p)) = .ok (.byte b)) ∧
    (∀ p xs, readPath h p = .ok (.seq xs) → evalArg h (.seq (.ref p)) = .ok (.seq xs)) ∧
    (∀ p xs, readPath h p = .ok (.bits xs) → evalArg h (.bitsRef p) = .ok (.bits xs)) ∧
    (∀ p f, readPath h p = .ok (.ident f) → evalArg h (.ident (.ref p)) = .ok (.ident f)) ∧
    (∀ p f, readPath h p = .ok (.msg f) → evalArg h (.msg (.ref p)) = .ok (.msg f)) ∧
    (∀ v fmt r, h.vars.lookup v = some (.response fmt r) →
      readPath h { var := v, fields := ["status"] } = .ok (.byte r.status) ∧
      (∀ n, r.detail = .offset n → readPath h { var := v, fields := ["detail"] } = .ok (.nat n)) ∧
      (∀ xs, r.detail = .bytes xs → readPath h { var := v, fields := ["detail"] } = .ok (.seq xs)) ∧
      (∀ (fs : List Field) (i : Nat) (n : String) (k : FieldKind) (f : Field), r.results = some fs → fmt.fields[i]? = some (n, k) → fs[i]? = some f →
        readPath h { var := v, fields := [n] } = .ok f))

/-- R80, R84: a request line issues one request, with one field for each operand, in their order, and the value of that operand;
where the operands are of the types of the format's fields, in that order, it is the request of the line's operation. The host then
waits (log entry 15); when the response is there, the whole of it is bound, and the host goes on to the next line. -/
def Obligations.RequestLineIssuesOneRequestAndBindsTheResponse : Prop :=
  ∀ (script : List Line) (y : System) (b : String) (op : Op) (args : List Arg) (fs : List Field),
    y.host.waiting = none → script[y.host.line]? = some (.request b op args) → evalArgs y.host args = .ok fs →
    fs.length = args.length ∧
    (∀ (i : Nat) (a : Arg), args[i]? = some a →
      ∃ f, fs[i]? = some f ∧ evalArg y.host a = .ok f ∧ f.kind = some (argKind a)) ∧
    (args.map argKind = op.format.fields.map Prod.snd →
      ∃ i : Instr, decode { op := op.code, operands := fs } = .ok i ∧ i.op = op ∧ i.operands = fs) ∧
    ∃ h : HostState, h.vars = y.host.vars ∧ h.line = y.host.line + 1 ∧ h.waiting.isSome = true ∧
      scriptStep script y =
        .next { host := h, block := { y.block with queue := y.block.queue ++ [{ op := op.code, operands := fs }] } } ∧
      ∀ (blk : State) (r : Response) (rest : List Response), blk.responses = r :: rest →
        ∃ h' : HostState, scriptStep script { host := h, block := blk } =
            .next { host := h', block := { blk with responses := rest } } ∧
          h'.waiting = none ∧ h'.line = y.host.line + 1 ∧ h'.vars.lookup b = some (.response op.resFormat r) ∧
          ∀ v, v ≠ b → h'.vars.lookup v = y.host.vars.lookup v

/-- R81: each pseudo-instruction expands to exactly one request, and its variable is the named result field. That the host waits
until the block has a response, and then takes the oldest one in one step, is the model's (log entry 15). -/
def Obligations.PseudoInstructionsExpandToOneRequest : Prop :=
  ∀ (script : List Line) (y : System) (b : String) (p : Pseudo) (args : List Arg) (fs : List Field) (code : Byte),
    y.host.waiting = none → script[y.host.line]? = some (.pseudo b p args) → evalArgs y.host args = .ok fs →
    (p, code) ∈ [(Pseudo.isBitSet, 0x01#8), (.highNybble, 0x04#8), (.lowNybble, 0x04#8), (.byteFromNybbles, 0x05#8)] →
    ∃ h : HostState, scriptStep script y =
        .next { host := h, block := { y.block with queue := y.block.queue ++ [{ op := code, operands := fs }] } } ∧
      ∀ (blk : State) (r : Response) (rest : List Response) (x y' : Byte), blk.responses = r :: rest →
        r.results = (if p = .isBitSet ∨ p = .byteFromNybbles then some [.byte x] else some [.byte x, .byte y']) →
        ∃ h' : HostState, scriptStep script { host := h, block := blk } =
            .next { host := h', block := { blk with responses := rest } } ∧
          h'.waiting = none ∧ h'.vars.lookup b = some (.value (.byte (if p = .lowNybble then y' else x)))

/-- R84, R80, R234: while the response of its line has not been delivered, the host does nothing and the block steps. That the host
waits after every request line, and how its steps and the block's alternate, is the model's (log entry 15), and
so is that it waits on, and issues nothing again, where a reset has abandoned its request (log entry 14). -/
def Obligations.HostWaitsForTheResponse : Prop :=
  ∀ (script : List Line) (y : System) (t : State), y.host.waiting.isSome = true → y.block.responses = [] →
    step y.block = .next t → scriptStep script y = .next { host := y.host, block := t }
end

