-- ==== Sys2Proof/Laws/Operands.lean ====
section
/-! SUPPORT. Fields and values, bounds, and `chunk` (Machine/Operands.lean). -/

namespace Sys2Proof.Machine

theorem posFits_iff (P : Params) (p : Int) :
    posFits P p = true ↔ ∀ w, P.posW = some w → -(2 ^ (w - 1) : Int) ≤ p ∧ p < (2 ^ (w - 1) : Int) := by
  unfold posFits
  cases h : P.posW with
  | none => simp
  | some w => simp

theorem lenFits_iff (P : Params) (n : Nat) : lenFits P n = true ↔ ∀ m, P.maxSeqLen = some m → n ≤ m := by
  unfold lenFits
  cases h : P.maxSeqLen with
  | none => simp
  | some m => simp

theorem lenFits_mono {P : Params} {m n : Nat} (h : lenFits P n = true) (hmn : m ≤ n) : lenFits P m = true := by
  rw [lenFits_iff] at h ⊢
  exact fun k hk => Nat.le_trans hmn (h k hk)

/-! ## Bits -/

@[simp] theorem bitOfField_bitField (b : Bit) : bitOfField (bitField b) = some b := by cases b <;> rfl

theorem bitOfField_eq_some {x : Byte} {b : Bit} (h : bitOfField x = some b) : x = bitField b := by
  unfold bitOfField at h
  split at h
  · cases h; assumption
  · split at h
    · cases h; assumption
    · cases h

theorem bitOfField_isSome (x : Byte) : (bitOfField x).isSome = decide (x.toNat ≤ 1) := by
  revert x; decide

@[simp] theorem bitsOfField_map_bitField (bs : BitSeq) : bitsOfField (bs.map bitField) = some bs := by
  induction bs with
  | nil => rfl
  | cons b bs ih => simp [bitsOfField, ih]

/-- A field reads as a BitSeq exactly where that BitSeq travels as the field. -/
theorem bitsOfField_eq_some {xs : List Byte} {bs : BitSeq} (h : bitsOfField xs = some bs) : xs = bs.map bitField := by
  induction xs generalizing bs with
  | nil => simp [bitsOfField] at h; subst h; rfl
  | cons x xs ih =>
    unfold bitsOfField at h
    split at h
    · rename_i b cs hb hcs
      cases h
      rw [List.map_cons, ← ih hcs, bitOfField_eq_some hb]
    · cases h

theorem bitsOfField_isSome (xs : List Byte) : (bitsOfField xs).isSome = wfBits xs := by
  induction xs with
  | nil => rfl
  | cons x xs ih =>
    have hx := bitOfField_isSome x
    simp only [wfBits, List.all_cons] at ih ⊢
    rw [← ih, ← hx, bitsOfField]
    cases bitOfField x <;> cases bitsOfField xs <;> rfl

/-! ## Identifiers and messages -/

@[simp] theorem idOfField_idField (id : Identifier) : idOfField (idField id) = some id := by cases id <;> rfl

@[simp] theorem msgOfField_msgField (m : Message) : msgOfField (msgField m) = some m := by
  cases m with
  | universal k h p => cases k <;> rfl
  | manufacturerSpecific id p => simp [msgField, msgOfField]

theorem tag_le_two (t : Byte) : decide (t.toNat ≤ 2) = (decide (t = 0#8) || decide (t = 1#8) || decide (t = 2#8)) := by
  revert t; decide

theorem tag_le_one (t : Byte) : decide (t.toNat ≤ 1) = (decide (t = 0#8) || decide (t = 1#8)) := by
  revert t; decide

theorem tag_eq_two (t : Byte) : decide (t.toNat = 2) = decide (t = 2#8) := by revert t; decide

theorem idOfField_isSome (f : IdField) : (idOfField f).isSome = wfId f := by
  unfold wfId idOfField
  rw [tag_le_two]
  by_cases h0 : f.tag = 0#8 <;> by_cases h1 : f.tag = 1#8 <;> by_cases h2 : f.tag = 2#8 <;> simp [h0, h1, h2]

theorem msgOfField_isSome (f : MsgField) : (msgOfField f).isSome = wfMsg f := by
  unfold wfMsg msgOfField
  rw [tag_le_one, tag_eq_two, ← idOfField_isSome]
  by_cases h0 : f.tag = 0#8
  · simp [h0]
  · by_cases h1 : f.tag = 1#8
    · simp [h1]
    · by_cases h2 : f.tag = 2#8
      · cases idOfField f.id <;> simp [h2]
      · simp [h0, h1, h2]

/-! ## Sequences -/

@[simp] theorem slice_length {s : ByteSeq} {a b : Nat} (h : b ≤ s.length) : (slice s a b).length = b - a := by
  simp [slice]; omega

/-- With enough fuel the groups do not depend on it. -/
theorem chunkFuel_enough {n : Nat} (hn : 0 < n) (s : ByteSeq) (f : Nat) (h : s.length ≤ f) :
    chunkFuel n f s = chunk s n := by
  suffices ∀ f g (s : ByteSeq), s.length ≤ f → s.length ≤ g → chunkFuel n f s = chunkFuel n g s from
    this f s.length s h (Nat.le_refl _)
  intro f
  induction f with
  | zero =>
    intro g s hf _
    cases s with
    | nil => cases g <;> rfl
    | cons x s => simp at hf
  | succ f ih =>
    intro g s hf hg
    cases s with
    | nil => cases g <;> rfl
    | cons x s =>
      cases g with
      | zero => simp at hg
      | succ g =>
        simp only [chunkFuel]
        simp only [List.length_cons] at hf hg
        rw [ih g] <;> simp <;> omega

@[simp] theorem chunk_nil (n : Nat) : chunk [] n = [] := rfl

/-- R10, one turn of its loop: the first `n` elements, then the groups of the rest. -/
theorem chunk_step {n : Nat} (hn : 0 < n) {s : ByteSeq} (hs : s ≠ []) :
    chunk s n = s.take n :: chunk (s.drop n) n := by
  cases s with
  | nil => exact absurd rfl hs
  | cons x s =>
    unfold chunk
    simp only [List.length_cons, chunkFuel]
    rw [chunkFuel_enough hn _ s.length (by simp; omega)]
    rfl

end Sys2Proof.Machine
end

