-- ==== Sys2Proof/Laws/State.lean ====
section
/-! SUPPORT. One lemma per field of State per update. -/

namespace Sys2Proof.Machine

@[simp] theorem deliver_params (r : Response) (s : State) : (deliver r s).params = s.params := rfl
@[simp] theorem deliver_resetLine (r : Response) (s : State) : (deliver r s).resetLine = s.resetLine := rfl
@[simp] theorem deliver_queue (r : Response) (s : State) : (deliver r s).queue = s.queue := rfl
@[simp] theorem deliver_current (r : Response) (s : State) : (deliver r s).current = none := rfl
@[simp] theorem deliver_responses (r : Response) (s : State) : (deliver r s).responses = s.responses ++ [r] := rfl

@[simp] theorem raise_params (e : Err) (s : State) : (raise e s).params = s.params := rfl
@[simp] theorem raise_resetLine (e : Err) (s : State) : (raise e s).resetLine = s.resetLine := rfl
@[simp] theorem raise_queue (e : Err) (s : State) : (raise e s).queue = s.queue := rfl
@[simp] theorem raise_current (e : Err) (s : State) : (raise e s).current = none := rfl
@[simp] theorem raise_responses (e : Err) (s : State) : (raise e s).responses = s.responses ++ [errResponse e] := rfl

@[simp] theorem takeReset_params (s : State) : (takeReset s).params = s.params := rfl
@[simp] theorem takeReset_resetLine (s : State) : (takeReset s).resetLine = false := rfl
@[simp] theorem takeReset_queue (s : State) : (takeReset s).queue = s.queue := rfl
@[simp] theorem takeReset_current (s : State) : (takeReset s).current = none := rfl
@[simp] theorem takeReset_responses (s : State) : (takeReset s).responses = s.responses := rfl

@[simp] theorem issue_params (r : Request) (s : State) : (issue r s).params = s.params := rfl
@[simp] theorem issue_resetLine (r : Request) (s : State) : (issue r s).resetLine = s.resetLine := rfl
@[simp] theorem issue_queue (r : Request) (s : State) : (issue r s).queue = s.queue ++ [r] := rfl
@[simp] theorem issue_current (r : Request) (s : State) : (issue r s).current = s.current := rfl
@[simp] theorem issue_responses (r : Request) (s : State) : (issue r s).responses = s.responses := rfl

@[simp] theorem assertReset_params (s : State) : (assertReset s).params = s.params := rfl
@[simp] theorem assertReset_resetLine (s : State) : (assertReset s).resetLine = true := rfl
@[simp] theorem assertReset_queue (s : State) : (assertReset s).queue = s.queue := rfl
@[simp] theorem assertReset_current (s : State) : (assertReset s).current = s.current := rfl
@[simp] theorem assertReset_responses (s : State) : (assertReset s).responses = s.responses := rfl

@[simp] theorem accept_params (s : State) : (accept s).params = s.params := by unfold accept; split <;> rfl
@[simp] theorem accept_resetLine (s : State) : (accept s).resetLine = s.resetLine := by unfold accept; split <;> rfl
@[simp] theorem accept_responses (s : State) : (accept s).responses = s.responses := by unfold accept; split <;> rfl

/-- With no request issued, accepting changes nothing. -/
theorem accept_of_empty {s : State} (h : s.queue = []) : accept s = s := by unfold accept; rw [h]

/-- The request issued first is accepted. -/
theorem accept_of_cons {s : State} {r : Request} {rest : List Request} (h : s.queue = r :: rest) :
    accept s = { s with current := some r, queue := rest } := by unfold accept; rw [h]

@[simp] theorem withFetchWord_params (s : State) (nbits w : Nat) : (s.withFetchWord nbits w).params = s.params := rfl
@[simp] theorem withFetchWord_resetLine (s : State) (nbits w : Nat) : (s.withFetchWord nbits w).resetLine = false := rfl
@[simp] theorem withFetchWord_queue (s : State) (nbits w : Nat) : (s.withFetchWord nbits w).queue = s.queue := rfl
@[simp] theorem withFetchWord_current (s : State) (nbits w : Nat) :
    (s.withFetchWord nbits w).current = some (tableRequest (w % 2 ^ nbits)) := rfl
@[simp] theorem withFetchWord_responses (s : State) (nbits w : Nat) :
    (s.withFetchWord nbits w).responses = s.responses := rfl

end Sys2Proof.Machine
end

