-- ==== Sys2Proof/Laws/Ops.lean ====
section
/-! SUPPORT. Once for each shared operation: everything it can do. -/

namespace Sys2Proof.Machine

/-- `complete` always answers a next state: the state with one response delivered. -/
@[simp] theorem complete_eq (legal : Bool) (lens : List Nat) (act : Except Err Result) (s : State) :
    complete legal lens act s = .next (deliver (respond s.params legal lens act) s) := rfl

/-- Two responses delivered at one state give one next state only where they are the same response. -/
theorem next_deliver_inj (r r' : Response) (s : State) :
    ((.next (deliver r s) : Host.Outcome State Fault Refusal) = .next (deliver r' s)) ↔ r = r' := by
  constructor
  · intro h
    injection h with h
    have := congrArg State.responses h
    simpa using this
  · intro h; rw [h]

/-- An operand outside its domain is reported before anything else (R207). -/
@[simp] theorem respond_illegal (P : Params) (lens : List Nat) (act : Except Err Result) :
    respond P false lens act = errResponse .illegalOperand := rfl

/-- An operand sequence above `MAX_SEQ_LEN` is reported before the operation's own checks (R207). -/
theorem respond_capacity {P : Params} {lens : List Nat} (act : Except Err Result) (h : lens.all (lenFits P) = false) :
    respond P true lens act = errResponse .capacity := by simp [respond, h]

/-- The operation's own error, where the request is accepted. -/
theorem respond_error {P : Params} {lens : List Nat} (e : Err) (h : lens.all (lenFits P) = true) :
    respond P true lens (.error e) = errResponse e := by simp [respond, h]

/-- The operation's result, where the request is accepted and the result fits. -/
theorem respond_ok {P : Params} {lens : List Nat} (r : Result) (h : lens.all (lenFits P) = true)
    (hr : (resultLens r).all (lenFits P) = true) : respond P true lens (.ok r) = okResponse r := by simp [respond, h, hr]

/-- A result above `MAX_SEQ_LEN` is reported last (R207). -/
theorem respond_too_long {P : Params} {lens : List Nat} (r : Result) (h : lens.all (lenFits P) = true)
    (hr : (resultLens r).all (lenFits P) = false) : respond P true lens (.ok r) = errResponse .capacity := by
  simp [respond, h, hr]

/-- Everything `respond` can answer. -/
theorem respond_cases (P : Params) (legal : Bool) (lens : List Nat) (act : Except Err Result) :
    (legal = false ∧ respond P legal lens act = errResponse .illegalOperand) ∨
    (legal = true ∧ lens.all (lenFits P) = false ∧ respond P legal lens act = errResponse .capacity) ∨
    (∃ e, legal = true ∧ lens.all (lenFits P) = true ∧ act = .error e ∧ respond P legal lens act = errResponse e) ∨
    (∃ r, legal = true ∧ lens.all (lenFits P) = true ∧ act = .ok r ∧ (resultLens r).all (lenFits P) = false ∧
      respond P legal lens act = errResponse .capacity) ∨
    (∃ r, legal = true ∧ lens.all (lenFits P) = true ∧ act = .ok r ∧ (resultLens r).all (lenFits P) = true ∧
      respond P legal lens act = okResponse r) := by
  cases legal with
  | false => exact .inl ⟨rfl, rfl⟩
  | true =>
    cases hl : lens.all (lenFits P) with
    | false => exact .inr (.inl ⟨rfl, rfl, respond_capacity act hl⟩)
    | true =>
      cases act with
      | error e => exact .inr (.inr (.inl ⟨e, rfl, rfl, rfl, respond_error e hl⟩))
      | ok r =>
        cases hr : (resultLens r).all (lenFits P) with
        | false => exact .inr (.inr (.inr (.inl ⟨r, rfl, rfl, rfl, hr, respond_too_long r hl hr⟩)))
        | true => exact .inr (.inr (.inr (.inr ⟨r, rfl, rfl, rfl, hr, respond_ok r hl hr⟩)))

/-- Every meaning delivers one response, which depends on the parameters and the operands alone. -/
theorem exec_delivers (i : Instr) : ∃ f : Params → Response, ∀ s, exec i s = .next (deliver (f s.params) s) := by
  cases i with
  | bitGet b p => exact ⟨fun P => respond P (posFits P p) [] (.ok (.bool (bitGet b p))), fun _ => rfl⟩
  | bitSet b p => exact ⟨fun P => respond P (posFits P p) [] (.ok (.byte (bitSet b p))), fun _ => rfl⟩
  | bitClear b p => exact ⟨fun P => respond P (posFits P p) [] (.ok (.byte (bitClear b p))), fun _ => rfl⟩
  | nybbleSplit b => exact ⟨fun P => respond P true [] (.ok (.nyb (highNybble b) (lowNybble b))), fun _ => rfl⟩
  | nybbleJoin h l => exact ⟨fun P => respond P true [] (.ok (.byte (nybbleJoin h l))), fun _ => rfl⟩
  | bitRangeReplace b lo hi v =>
    exact ⟨fun P => respond P (posFits P lo && posFits P hi) []
      (.ok (.byte (bitRangeReplace P.replaceOverflow b lo hi v))), fun _ => rfl⟩
  | bitsOfByte b => exact ⟨fun P => respond P true [] (.ok (.bits (bitsOfByte b))), fun _ => rfl⟩
  | byteOfBits xs => exact ⟨fun P => respond P (bitsOfField xs).isSome [xs.length] _, fun _ => rfl⟩
  | pack7bit xs => exact ⟨fun P => respond P true [xs.length] (.ok (.seq (pack7bit xs))), fun _ => rfl⟩
  | unpack7bit xs =>
    exact ⟨fun P => respond P true [xs.length] (.ok (.seq (unpack7bit P.unpackHighBit xs))), fun _ => rfl⟩
  | mfgIdPack f => exact ⟨fun P => respond P (idOfField f).isSome [] _, fun _ => rfl⟩
  | mfgIdUnpack xs =>
    exact ⟨fun P => respond P true [xs.length] ((mfgIdUnpack P.stdIdHighRegion xs).map (fun r => .idn r.1 r.2)),
      fun _ => rfl⟩
  | sysexParse xs => exact ⟨fun P => respond P true [xs.length] ((sysexParse xs).map .msg), fun _ => rfl⟩
  | sysexEncode f => exact ⟨fun P => respond P (msgOfField f).isSome [f.payload.length] _, fun _ => rfl⟩

/-- Serving a request delivers one response, which depends on the parameters and the request alone. -/
theorem serve_delivers (r : Request) : ∃ f : Params → Response, ∀ s, serve r s = .next (deliver (f s.params) s) := by
  unfold serve
  cases decode r with
  | error e => exact ⟨fun _ => errResponse e, fun _ => rfl⟩
  | ok i => exact exec_delivers i

theorem step_of_reset {s : State} (h : s.resetLine = true) : step s = .next (takeReset s) := by
  simp [step, service, h]

theorem step_of_current {s : State} {r : Request} (h : s.resetLine = false) (hc : s.current = some r) :
    step s = serve r s := by
  simp [step, service, h, hc]

theorem step_of_idle {s : State} (h : s.resetLine = false) (hc : s.current = none) : step s = .next (accept s) := by
  simp [step, service, h, hc]

/-- A request that decodes is executed. -/
theorem serve_of_decode {r : Request} {i : Instr} (h : decode r = .ok i) (s : State) : serve r s = exec i s := by
  unfold serve; rw [h]

/-- A request that does not decode ends with its error. -/
theorem serve_of_error {r : Request} {e : Err} (h : decode r = .error e) (s : State) : serve r s = .next (raise e s) := by
  unfold serve; rw [h]

/-- Everything a step can do: take a reset, serve the request in service, or accept the next one. -/
theorem step_cases (s : State) :
    (s.resetLine = true ∧ step s = .next (takeReset s)) ∨
    (∃ r, s.resetLine = false ∧ s.current = some r ∧ step s = serve r s) ∨
    (s.resetLine = false ∧ s.current = none ∧ step s = .next (accept s)) := by
  cases h : s.resetLine with
  | true => exact .inl ⟨rfl, step_of_reset h⟩
  | false =>
    cases hc : s.current with
    | some r => exact .inr (.inl ⟨r, rfl, rfl, step_of_current h hc⟩)
    | none => exact .inr (.inr ⟨rfl, rfl, step_of_idle h hc⟩)

end Sys2Proof.Machine
end

