-- ==== Sys2Proof/Laws/BitNybble.lean ====
section
/-! SUPPORT. What each bit of a bit primitive's result is (Machine/BitNybble.lean). -/

namespace Sys2Proof.Machine

theorem inByte_iff (p : Int) : inByte p = true ↔ 0 ≤ p ∧ p ≤ 7 := by simp [inByte]

/-- A position inside a Byte is one of the eight. -/
theorem inByte_cases {p : Int} (h : inByte p = true) : ∃ n : Fin 8, p = ((n : Nat) : Int) := by
  rw [inByte_iff] at h
  exact ⟨⟨p.toNat, by omega⟩, by simp; omega⟩

theorem bitSet_getLsbD (b : Byte) (p : Int) (k : Nat) (hk : k < 8) :
    (bitSet b p).getLsbD k = (b.getLsbD k || decide ((k : Int) = p)) := by
  unfold bitSet
  split
  · next h =>
    obtain ⟨n, rfl⟩ := inByte_cases h
    have : ∀ (n : Fin 8) (k : Fin 8), (1#8 <<< (n : Nat)).getLsbD (k : Nat) = decide ((k : Nat) = (n : Nat)) := by decide
    simpa using congrArg (b.getLsbD k || ·) (this n ⟨k, hk⟩)
  · next h =>
    have : (k : Int) ≠ p := fun e => h (by rw [inByte_iff]; omega)
    simp [this]

theorem bitClear_getLsbD (b : Byte) (p : Int) (k : Nat) (hk : k < 8) :
    (bitClear b p).getLsbD k = (b.getLsbD k && !decide ((k : Int) = p)) := by
  unfold bitClear
  split
  · next h =>
    obtain ⟨n, rfl⟩ := inByte_cases h
    have : ∀ (n : Fin 8) (k : Fin 8), (1#8 <<< (n : Nat)).getLsbD (k : Nat) = decide ((k : Nat) = (n : Nat)) := by decide
    have hk' := this n ⟨k, hk⟩
    simp only [Int.toNat_natCast, BitVec.getLsbD_and, BitVec.getLsbD_not, hk, decide_true, Bool.true_and]
    simp only at hk'
    rw [hk']
    simp
  · next h =>
    have : (k : Int) ≠ p := fun e => h (by rw [inByte_iff]; omega)
    simp [this]

/-- The mask of a range is ones exactly at its positions. -/
theorem rangeMask_getLsbD : ∀ (lo n : Fin 9) (k : Fin 8), lo.val + n.val ≤ 8 →
    (rangeMask lo n).getLsbD k = (decide (lo.val ≤ k.val) && decide (k.val < lo.val + n.val)) := by decide

end Sys2Proof.Machine
end

