-- ==== Sys2Proof/Laws/Codec.lean ====
section
/-! SUPPORT. Once for each codec function: the errors it can raise, and what its results are (Machine/BitNybble.lean, MfgId.lean,
Sysex.lean). -/

namespace Sys2Proof.Machine

theorem except_map_error {α β ε : Type} {x : Except ε α} {f : α → β} {e : ε} : x.map f = .error e ↔ x = .error e := by
  cases x <;> simp [Except.map]

theorem except_map_ok {α β ε : Type} {x : Except ε α} {f : α → β} {b : β} : x.map f = .ok b ↔ ∃ a, x = .ok a ∧ f a = b := by
  cases x <;> simp [Except.map]

/-- R108: bit `k` of the byte is the element at position `k`, 0 where there is none. -/
theorem byteOfBits_getLsbD (bs : BitSeq) (k : Nat) (hk : k < 8) : (byteOfBits bs).getLsbD k = bs.getD k false := by
  have one : ∀ (n k : Fin 8) (b : Bool), (bitField b <<< n.val).getLsbD k.val = (decide (k = n) && b) := by decide
  have key : ∀ n ≤ 8, ((List.range n).foldl (fun r i => r ||| (bitField (bs.getD i false) <<< i)) 0#8).getLsbD k =
      (decide (k < n) && bs.getD k false) := by
    intro n hn
    induction n with
    | zero => simp
    | succ n ih =>
      have := one ⟨n, by omega⟩ ⟨k, hk⟩ (bs.getD n false)
      simp only [Fin.mk.injEq] at this
      rw [List.range_succ, List.foldl_append]
      simp only [List.foldl_cons, List.foldl_nil, BitVec.getLsbD_or]
      rw [ih (by omega), this]
      by_cases h1 : k = n
      · subst h1; simp
      · simp [h1]; congr 1; simp; omega
  rw [byteOfBits, key _ (by omega)]
  by_cases h : k < bs.length
  · simp [h, hk]
  · simp [h]

/-- R160: the one error of `mfg_id_pack`. -/
theorem mfgIdPack_error {id : Identifier} {e : Err} (h : mfgIdPack id = .error e) :
    ∃ bs, e = .invalidManufacturer bs ∧ (bs.length = 1 ∨ bs.length = 3) := by
  unfold mfgIdPack at h
  split at h
  · split at h <;> simp at h; exact ⟨_, h.symm, .inl rfl⟩
  · split at h <;> simp at h; exact ⟨_, h.symm, .inr rfl⟩
  · simp at h

/-- R160, R28: what `mfg_id_pack` accepts is encodable, and takes one to three bytes. -/
theorem mfgIdPack_ok {id : Identifier} {r : ByteSeq} (h : mfgIdPack id = .ok r) :
    encodable id = true ∧ 1 ≤ r.length ∧ r.length ≤ 3 := by
  unfold mfgIdPack at h
  split at h
  · split at h <;> simp at h
    subst h; simp [encodable]; tauto
  · split at h <;> simp at h
    subst h; simp [encodable]; tauto
  · cases h; simp [encodable]

/-- R162: the two errors of `mfg_id_unpack`. -/
theorem mfgIdUnpack_error {region : StdIdHighRegion} {xs : ByteSeq} {e : Err} (h : mfgIdUnpack region xs = .error e) :
    e = .invalidData 0 ∨ ∃ a, e = .invalidManufacturer [a] := by
  unfold mfgIdUnpack at h
  split at h
  · simp at h; exact .inl h.symm
  · simp only at h
    split at h
    · split at h <;> simp at h; exact .inl h.symm
    · split at h
      · simp at h
      · split at h <;> simp at h; exact .inr ⟨_, h.symm⟩

/-- R180: the two errors of `sysex_parse`. -/
theorem sysexParse_error {xs : ByteSeq} {e : Err} (h : sysexParse xs = .error e) : e = .invalidData 0 ∨ e = .badFormat := by
  unfold sysexParse at h
  simp only at h
  split at h
  · simp at h; exact .inl h.symm
  split at h
  · simp at h; exact .inr h.symm
  split at h
  · simp at h; exact .inr h.symm
  split at h
  · split at h <;> simp at h; exact .inl h.symm
  split at h
  · simp at h
  split at h <;> simp at h

/-- R185: the one error of `sysex_encode`. -/
theorem sysexEncode_error {m : Message} {e : Err} (h : sysexEncode m = .error e) :
    ∃ bs, e = .invalidManufacturer bs ∧ (bs.length = 1 ∨ bs.length = 3) := by
  unfold sysexEncode at h
  split at h
  · simp at h
  · split at h
    · next h2 => simp at h; subst h; exact mfgIdPack_error h2
    · simp at h

end Sys2Proof.Machine
end

