-- ==== Sys2Proof/Laws/Decode.lean ====
section
/-! SUPPORT. The opcode map and the formats (Decode.lean). -/

namespace Sys2Proof

/-- A byte selects an operation exactly where it is that operation's code. -/
theorem opOfCode_eq_some (c : Byte) (o : Op) : opOfCode c = some o ↔ c = o.code := by
  cases o <;> revert c <;> decide

/-- Operand fields are read exactly where their kinds are those of the format. -/
theorem decodeOperands_kinds {o : Op} {fs : List Field} {i : Instr} (h : decodeOperands o fs = some i) :
    i.op = o ∧ i.operands = fs := by
  unfold decodeOperands at h
  split at h <;> cases h <;> exact ⟨rfl, rfl⟩

end Sys2Proof
end

