-- ==== Sys2Proof/Laws/Exec.lean ====
section
/-! SUPPORT. Every meaning in one form: `respond` of whether the operands are inside their domains, of the lengths of the operand
sequences, and of the operation itself. Later proofs cite `exec_eq_respond` instead of unfolding fourteen meanings. -/

namespace Sys2Proof.Machine

/-- R203: the operands are inside their domains. -/
def operandsLegal (P : Params) : Instr → Bool
  | .bitGet _ p => posFits P p
  | .bitSet _ p => posFits P p
  | .bitClear _ p => posFits P p
  | .nybbleSplit _ => true
  | .nybbleJoin _ _ => true
  | .bitRangeReplace _ lo hi _ => posFits P lo && posFits P hi
  | .bitsOfByte _ => true
  | .byteOfBits xs => (bitsOfField xs).isSome
  | .pack7bit _ => true
  | .unpack7bit _ => true
  | .mfgIdPack f => (idOfField f).isSome
  | .mfgIdUnpack _ => true
  | .sysexParse _ => true
  | .sysexEncode f => (msgOfField f).isSome

/-- R204: the lengths of the operand sequences. -/
def operandSeqLengths : Instr → List Nat
  | .bitGet _ _ => []
  | .bitSet _ _ => []
  | .bitClear _ _ => []
  | .nybbleSplit _ => []
  | .nybbleJoin _ _ => []
  | .bitRangeReplace _ _ _ _ => []
  | .bitsOfByte _ => []
  | .byteOfBits xs => [xs.length]
  | .pack7bit xs => [xs.length]
  | .unpack7bit xs => [xs.length]
  | .mfgIdPack _ => []
  | .mfgIdUnpack xs => [xs.length]
  | .sysexParse xs => [xs.length]
  | .sysexEncode f => [f.payload.length]

/-- What the operation itself returns or raises. -/
def operation (P : Params) : Instr → Except Err Result
  | .bitGet b p => .ok (.bool (bitGet b p))
  | .bitSet b p => .ok (.byte (bitSet b p))
  | .bitClear b p => .ok (.byte (bitClear b p))
  | .nybbleSplit b => .ok (.nyb (highNybble b) (lowNybble b))
  | .nybbleJoin high low => .ok (.byte (nybbleJoin high low))
  | .bitRangeReplace b lo hi v => .ok (.byte (bitRangeReplace P.replaceOverflow b lo hi v))
  | .bitsOfByte b => .ok (.bits (bitsOfByte b))
  | .byteOfBits xs =>
    match bitsOfField xs with
    | some bits => .ok (.byte (byteOfBits bits))
    | none => .error .illegalOperand
  | .pack7bit xs => .ok (.seq (pack7bit xs))
  | .unpack7bit xs => .ok (.seq (unpack7bit P.unpackHighBit xs))
  | .mfgIdPack f =>
    match idOfField f with
    | some id => (mfgIdPack id).map .seq
    | none => .error .illegalOperand
  | .mfgIdUnpack xs => (mfgIdUnpack P.stdIdHighRegion xs).map (fun r => .idn r.1 r.2)
  | .sysexParse xs => (sysexParse xs).map .msg
  | .sysexEncode f =>
    match msgOfField f with
    | some m => (sysexEncode m).map .seq
    | none => .error .illegalOperand

theorem exec_eq_respond (i : Instr) (s : State) :
    exec i s = .next (deliver (respond s.params (operandsLegal s.params i) (operandSeqLengths i) (operation s.params i)) s) := by
  cases i <;> rfl

/-- The errors an operation of its own can raise, where its operands are inside their domains. -/
theorem operation_error {P : Params} {i : Instr} {e : Err} (h : operation P i = .error e) (hl : operandsLegal P i = true) :
    e = .invalidData 0 ∨ e = .badFormat ∨ ∃ bs, e = .invalidManufacturer bs ∧ (bs.length = 1 ∨ bs.length = 3) := by
  cases i <;> simp only [operation, operandsLegal] at h hl <;> try simp at h
  case byteOfBits xs => cases hb : bitsOfField xs <;> simp [hb] at h hl
  case mfgIdPack f =>
    cases hb : idOfField f <;> simp [hb, except_map_error] at h hl
    exact .inr (.inr (mfgIdPack_error h))
  case sysexEncode f =>
    cases hb : msgOfField f <;> simp [hb, except_map_error] at h hl
    exact .inr (.inr (sysexEncode_error h))
  case mfgIdUnpack xs =>
    rw [except_map_error] at h
    rcases mfgIdUnpack_error h with rfl | ⟨a, rfl⟩
    · exact .inl rfl
    · exact .inr (.inr ⟨_, rfl, .inl rfl⟩)
  case sysexParse xs =>
    rw [except_map_error] at h
    rcases sysexParse_error h with rfl | rfl
    · exact .inl rfl
    · exact .inr (.inl rfl)

end Sys2Proof.Machine
end

