-- ==== Sys2Proof/Laws/Pack7.lean ====
section
/-! SUPPORT. One turn of the packer and the unpacker (Machine/Pack7.lean): the first group, then the rest. -/

namespace Sys2Proof.Machine

@[simp] theorem pack7bit_nil : pack7bit [] = [] := rfl

@[simp] theorem unpack7bit_nil (hb : UnpackHighBit) : unpack7bit hb [] = [] := rfl

theorem pack7bit_step {s : ByteSeq} (hs : s ≠ []) : pack7bit s = packGroup (s.take 7) ++ pack7bit (s.drop 7) := by
  unfold pack7bit
  rw [chunk_step (by decide) hs, List.flatMap_cons]

theorem unpack7bit_step (hb : UnpackHighBit) {w : ByteSeq} (hw : w ≠ []) :
    unpack7bit hb w = unpackGroup hb (w.take 8) ++ unpack7bit hb (w.drop 8) := by
  unfold unpack7bit
  rw [chunk_step (by decide) hw, List.flatMap_cons]

@[simp] theorem packGroup_length (g : ByteSeq) : (packGroup g).length = g.length + 1 := by simp [packGroup]

@[simp] theorem unpackGroup_length (hb : UnpackHighBit) (g : ByteSeq) : (unpackGroup hb g).length = g.length - 1 := by
  cases g <;> simp [unpackGroup]

/-- R140: bit `k` of the index byte of a group of at most 8 bytes is bit 7 of its `k`-th byte, and 0 where it has none. -/
theorem indexByte_getLsbD (g : ByteSeq) (hg : g.length ≤ 8) (k : Nat) (hk : k < 8) :
    (indexByte g).getLsbD k = (decide (k < g.length) && (elem g k).getLsbD 7) := by
  have one : ∀ (n k : Fin 8), (1#8 <<< n.val).getLsbD k.val = decide (k = n) := by decide
  suffices ∀ n ≤ 8, ((List.range n).foldl
      (fun idx i => if (elem g i).getLsbD 7 then idx ||| (1#8 <<< i) else idx) 0#8).getLsbD k =
        (decide (k < n) && (elem g k).getLsbD 7) from this _ hg
  intro n hn
  induction n with
  | zero => simp
  | succ n ih =>
    have hb := one ⟨n, by omega⟩ ⟨k, hk⟩
    simp only [Fin.mk.injEq] at hb
    rw [List.range_succ, List.foldl_append]
    simp only [List.foldl_cons, List.foldl_nil]
    by_cases hkn : k = n
    · subst hkn
      cases h7 : (elem g k).getLsbD 7 <;> simp at ih ⊢
      · exact ih (by omega)
      · exact .inr (by simpa using hb)
    · have : decide (k < n + 1) = decide (k < n) := by simp; omega
      rw [this, ← ih (by omega)]
      split <;> simp [hb, hkn]

/-- R141: the `j`-th byte of an unpacked group is its `j`-th data byte with bit 7 from bit `j` of its index byte. -/
theorem unpackGroup_getElem? (hb : UnpackHighBit) (idx : Byte) (ds : ByteSeq) (j : Nat) :
    (unpackGroup hb (idx :: ds))[j]? = (ds[j]?).map (restoreHighBit hb (idx.getLsbD j)) := by
  simp [unpackGroup, List.getElem?_zipIdx, Function.comp_def]

end Sys2Proof.Machine
end

