-- ==== Sys2Proof/Laws/PerInstr.lean ====
section
/-! SUPPORT. For each instruction: its request carries the opcode that R68 gives its operation, and operand fields of the kinds
that R63 gives its format, in that order. -/

namespace Sys2Proof.Laws.FormatKept

open Sys2Proof

def Statement (i : Instr) : Prop :=
  opOfCode (encode i).op = some i.op ∧
    (encode i).operands.map Field.kind = i.op.format.fields.map (fun f => some f.2)

theorem bitGet (b : Byte) (p : Int) : Statement (.bitGet b p) := ⟨rfl, rfl⟩
theorem bitSet (b : Byte) (p : Int) : Statement (.bitSet b p) := ⟨rfl, rfl⟩
theorem bitClear (b : Byte) (p : Int) : Statement (.bitClear b p) := ⟨rfl, rfl⟩
theorem nybbleSplit (b : Byte) : Statement (.nybbleSplit b) := ⟨rfl, rfl⟩
theorem nybbleJoin (high low : Byte) : Statement (.nybbleJoin high low) := ⟨rfl, rfl⟩
theorem bitRangeReplace (b : Byte) (lo hi : Int) (v : Byte) : Statement (.bitRangeReplace b lo hi v) := ⟨rfl, rfl⟩
theorem bitsOfByte (b : Byte) : Statement (.bitsOfByte b) := ⟨rfl, rfl⟩
theorem byteOfBits (bits : List Byte) : Statement (.byteOfBits bits) := ⟨rfl, rfl⟩
theorem pack7bit (s : ByteSeq) : Statement (.pack7bit s) := ⟨rfl, rfl⟩
theorem unpack7bit (s : ByteSeq) : Statement (.unpack7bit s) := ⟨rfl, rfl⟩
theorem mfgIdPack (id : IdField) : Statement (.mfgIdPack id) := ⟨rfl, rfl⟩
theorem mfgIdUnpack (s : ByteSeq) : Statement (.mfgIdUnpack s) := ⟨rfl, rfl⟩
theorem sysexParse (s : ByteSeq) : Statement (.sysexParse s) := ⟨rfl, rfl⟩
theorem sysexEncode (m : MsgField) : Statement (.sysexEncode m) := ⟨rfl, rfl⟩

end Sys2Proof.Laws.FormatKept
end

