-- ==== Sys2Proof/Laws/Run.lean ====
section
/-! SUPPORT. Runs of the block (Host/Core.lean). -/

namespace Sys2Proof.Machine

/-- Of any machine: a run of `n + 1` steps takes one step and runs `n` more. -/
theorem machine_run_succ (M : Host.Core) {n : Nat} {s t : M.State} (h : M.step s = .next t) :
    M.run (n + 1) s = M.run n t := by
  rw [Host.Core.run, h]

theorem run_zero (s : State) : core.run 0 s = .next s := rfl

theorem run_succ {n : Nat} {s t : State} (h : step s = .next t) : core.run (n + 1) s = core.run n t :=
  machine_run_succ core h

end Sys2Proof.Machine
end

