-- ==== Sys2Proof/Laws/Script.lean ====
section
/-! SUPPORT. What labels and operand lists of a request script come to (Machine/Script.lean). -/

namespace Sys2Proof.Machine

@[simp] theorem advance_vars (h : HostState) : (advance h).vars = h.vars := rfl
@[simp] theorem advance_line (h : HostState) : (advance h).line = h.line + 1 := rfl
@[simp] theorem advance_waiting (h : HostState) : (advance h).waiting = h.waiting := rfl

/-- R84: a label that some line carries is found, at a line that carries it. -/
theorem labelLine_of_mem {script : List Line} {l : String} (h : Line.label l ∈ script) :
    ∃ n, labelLine script l = some n ∧ script[n]? = some (.label l) := by
  cases hn : labelLine script l with
  | none =>
    rw [labelLine, List.findIdx?_eq_none_iff] at hn
    simpa using hn _ h
  | some n =>
    rw [labelLine, List.findIdx?_eq_some_iff_getElem] at hn
    obtain ⟨hlt, hd, _⟩ := hn
    exact ⟨n, rfl, by rw [List.getElem?_eq_getElem hlt]; simpa using hd⟩

/-- R80: the operands of a line have one field each, in their order. -/
theorem evalArgs_ok {h : HostState} {args : List Arg} {fs : List Field} (e : evalArgs h args = .ok fs) :
    fs.length = args.length ∧ ∀ (i : Nat) (a : Arg), args[i]? = some a → ∃ f, fs[i]? = some f ∧ evalArg h a = .ok f := by
  induction args generalizing fs with
  | nil => cases e; simp
  | cons a args ih =>
    simp only [evalArgs] at e
    split at e
    · next f gs hf hgs =>
      cases e
      obtain ⟨hl, hv⟩ := ih hgs
      refine ⟨by simp [hl], ?_⟩
      intro i b hb
      cases i with
      | zero => simp at hb; subst hb; exact ⟨f, rfl, hf⟩
      | succ i => simp at hb; simpa using hv i b hb
    · cases e
    · cases e

end Sys2Proof.Machine
end

