-- ==== Sys2Proof/Machine/Assembler.lean ====
section
/-! DEFINITION. The text of a request script (30_encoding.md R80, R81, R84), read into the lines of Script.lean. A text that is
not of that form gives none. -/

namespace Sys2Proof.Machine

/-! ## Tokens -/

inductive Tok where
  /-- A name or keyword. -/
  | word (s : String)
  /-- R80: a Byte literal `0xHH` or `0bBBBBBBBB`. -/
  | byteLit (b : Byte)
  /-- A decimal number. -/
  | num (n : Nat)
  | sym (s : String)
deriving DecidableEq, Repr

def isDigitChar (c : Char) : Bool := decide (48 ≤ c.toNat ∧ c.toNat ≤ 57)

def isWordChar (c : Char) : Bool :=
  isDigitChar c || decide (65 ≤ c.toNat ∧ c.toNat ≤ 90) || decide (97 ≤ c.toNat ∧ c.toNat ≤ 122) || decide (c = '_')

def hexVal (c : Char) : Option Nat :=
  if isDigitChar c then some (c.toNat - 48)
  else if 65 ≤ c.toNat ∧ c.toNat ≤ 70 then some (c.toNat - 55)
  else if 97 ≤ c.toNat ∧ c.toNat ≤ 102 then some (c.toNat - 87)
  else none

/-- Digits in a base, most significant first; none where one is not a digit of the base, or there is none. -/
def digitsVal (base : Nat) (acc : Nat) : List Char → Option Nat
  | [] => some acc
  | c :: cs =>
    match hexVal c with
    | some d => if d < base then digitsVal base (acc * base + d) cs else none
    | none => none

/-- A maximal run of letters, digits and underscores: a Byte literal, a decimal number, or a word. -/
def wordTok (cs : List Char) : Option Tok :=
  match cs with
  | ['0', 'x', a, b] => (digitsVal 16 0 [a, b]).map (fun n => .byteLit (BitVec.ofNat 8 n))
  | '0' :: 'b' :: bs =>
    if bs.length = 8 then (digitsVal 2 0 bs).map (fun n => .byteLit (BitVec.ofNat 8 n)) else none
  | c :: _ =>
    if isDigitChar c then (digitsVal 10 0 cs).map .num else some (.word (String.ofList cs))
  | [] => none

/-- The tokens of a text; `fuel` is at least its length. DESIGN CHOICE (log entry 16): a name is letters, digits and underscores and
does not begin with a digit, and the space is the only blank. -/
def lexChars : Nat → List Char → Option (List Tok)
  | 0, [] => some []
  | 0, _ :: _ => none
  | _ + 1, [] => some []
  | fuel + 1, c :: cs =>
    if c = ' ' then lexChars fuel cs
    else if isWordChar c then
      match wordTok (c :: cs.takeWhile isWordChar), lexChars fuel (cs.dropWhile isWordChar) with
      | some t, some ts => some (t :: ts)
      | _, _ => none
    else
      match c, cs with
      | '=', '=' :: rest => (lexChars fuel rest).map (fun ts => .sym "==" :: ts)
      | '!', '=' :: rest => (lexChars fuel rest).map (fun ts => .sym "!=" :: ts)
      | _, _ =>
        if "=,[]().:-".toList.contains c then (lexChars fuel cs).map (fun ts => .sym (String.ofList [c]) :: ts) else none

def lexText (s : String) : Option (List Tok) := lexChars s.toList.length s.toList

/-! ## Operands (R80) -/

/-- The field names after a variable. -/
def parseFields : List Tok → List String × List Tok
  | .sym "." :: .word w :: ts => ((w :: (parseFields ts).1), (parseFields ts).2)
  | ts => ([], ts)

def parsePath : List Tok → Option (Path × List Tok)
  | .word v :: ts => some ({ var := v, fields := (parseFields ts).1 }, (parseFields ts).2)
  | _ => none

def parseByteLit : List Tok → Option (Byte × List Tok)
  | .byteLit b :: ts => some (b, ts)
  | .num n :: ts => if n < 256 then some (BitVec.ofNat 8 n, ts) else none
  | _ => none

def parseByteArg (ts : List Tok) : Option (ByteArg × List Tok) :=
  match parseByteLit ts with
  | some (b, rest) => some (.lit b, rest)
  | none => (parsePath ts).map (fun r => (.ref r.1, r.2))

def parsePos : List Tok → Option (Int × List Tok)
  | .num n :: ts => some ((n : Int), ts)
  | .sym "-" :: .num n :: ts => some (-(n : Int), ts)
  | _ => none

def parseSym (s : String) : List Tok → Option (List Tok)
  | .sym t :: ts => if s = t then some ts else none
  | _ => none

/-- The items of a list after the first, up to and with its closing symbol. -/
def parseMore {α : Type} (p : List Tok → Option (α × List Tok)) (close : String) :
    Nat → List Tok → Option (List α × List Tok)
  | 0, _ => none
  | fuel + 1, ts =>
    match parseSym close ts with
    | some rest => some ([], rest)
    | none =>
      match (parseSym "," ts).bind p with
      | none => none
      | some (x, rest) => (parseMore p close fuel rest).map (fun r => (x :: r.1, r.2))

/-- The items of a list after its opening symbol: none, or one or more between commas. -/
def parseItems {α : Type} (p : List Tok → Option (α × List Tok)) (close : String) (ts : List Tok) :
    Option (List α × List Tok) :=
  match parseSym close ts with
  | some rest => some ([], rest)
  | none =>
    match p ts with
    | none => none
    | some (x, rest) => (parseMore p close ts.length rest).map (fun r => (x :: r.1, r.2))

def parseSeqArg (ts : List Tok) : Option (SeqArg × List Tok) :=
  match parseSym "[" ts with
  | some rest => (parseItems parseByteArg "]" rest).map (fun r => (.lit r.1, r.2))
  | none => (parsePath ts).map (fun r => (.ref r.1, r.2))

/-- R80: a BitSeq. DESIGN CHOICE (log entry 10): an element, which R80 writes 0 or 1, is read in every literal form of a Byte, so
that `bits[1, 2]` is a script whose request is an IllegalOperand; and a variable may stand for the whole. -/
def parseBitsArg : List Tok → Option (Arg × List Tok)
  | .word "bits" :: .sym "[" :: ts => (parseItems parseByteLit "]" ts).map (fun r => (.bits r.1, r.2))
  | ts => (parsePath ts).map (fun r => (.bitsRef r.1, r.2))

/-- R80: an Identifier. DESIGN CHOICE (log entry 10): its bytes, which R80 writes `0xHH`, are read in every form of a Byte operand:
hexadecimal, binary and decimal literals and variables; and a variable may stand for the whole. -/
def parseIdArg : List Tok → Option (IdArg × List Tok)
  | .word "development" :: ts => some (.development, ts)
  | .word "standard" :: .sym "(" :: ts =>
    match parseItems parseByteArg ")" ts with
    | some ([b], rest) => some (.standard b, rest)
    | _ => none
  | .word "extended" :: .sym "(" :: ts =>
    match parseItems parseByteArg ")" ts with
    | some ([b0, b1, b2], rest) => some (.extended b0 b1 b2, rest)
    | _ => none
  | ts => (parsePath ts).map (fun r => (.ref r.1, r.2))

def parseKind : List Tok → Option (Kind × List Tok)
  | .word "nonRealTime" :: ts => some (.nonRealTime, ts)
  | .word "realTime" :: ts => some (.realTime, ts)
  | _ => none

/-- The payload of a Message and the bracket that ends it. -/
def parsePayload (ts : List Tok) : Option (SeqArg × List Tok) :=
  match (parseSym "," ts).bind parseSeqArg with
  | some (p, rest) => (parseSym ")" rest).map (fun r => (p, r))
  | none => none

/-- R80: the header `(dc, s1, s2)` of a Message. DESIGN CHOICE (log entry 10): R80 gives its bytes no form, and each is read in every
form of a Byte operand. -/
def parseHeader (ts : List Tok) : Option ((ByteArg × ByteArg × ByteArg) × List Tok) :=
  match ((parseSym "," ts).bind (parseSym "(")).bind (parseItems parseByteArg ")") with
  | some ([dc, s1, s2], rest) => some ((dc, s1, s2), rest)
  | _ => none

/-- R80: a Message, or a variable that stands for the whole (DESIGN CHOICE, log entry 10). -/
def parseMsgArg : List Tok → Option (MsgArg × List Tok)
  | .word "universal" :: .sym "(" :: ts =>
    match parseKind ts with
    | none => none
    | some (k, ts) =>
      match parseHeader ts with
      | none => none
      | some ((dc, s1, s2), ts) => (parsePayload ts).map (fun r => (.universal k dc s1 s2 r.1, r.2))
  | .word "manufacturerSpecific" :: .sym "(" :: ts =>
    match parseIdArg ts with
    | none => none
    | some (id, ts) => (parsePayload ts).map (fun r => (.manufacturerSpecific id r.1, r.2))
  | ts => (parsePath ts).map (fun r => (.ref r.1, r.2))

/-- R80: an operand of the type its place in the format has (R63). A natural number is in no operand format. -/
def parseArg (k : FieldKind) (ts : List Tok) : Option (Arg × List Tok) :=
  match k with
  | .byte => (parseByteArg ts).map (fun r => (.byte r.1, r.2))
  | .pos => (parsePos ts).map (fun r => (.pos r.1, r.2))
  | .bits => parseBitsArg ts
  | .seq => (parseSeqArg ts).map (fun r => (.seq r.1, r.2))
  | .ident => (parseIdArg ts).map (fun r => (.ident r.1, r.2))
  | .msg => (parseMsgArg ts).map (fun r => (.msg r.1, r.2))
  | .nat => none

/-- R80: the operands in the order of the format's fields, between commas, up to the end of the line. -/
def parseArgs : List FieldKind → List Tok → Option (List Arg)
  | [], [] => some []
  | [], _ :: _ => none
  | [k], ts =>
    match parseArg k ts with
    | some (a, []) => some [a]
    | _ => none
  | k :: ks, ts =>
    match parseArg k ts with
    | none => none
    | some (a, rest) => ((parseSym "," rest).bind (parseArgs ks)).map (fun as => a :: as)

/-! ## Conditions and lines (R84) -/

/-- R70. -/
def statusOfName (s : String) : Option Status :=
  [("OK", Status.ok), ("BadFormat", .badFormat), ("InvalidData", .invalidData), ("InvalidManufacturer", .invalidManufacturer),
    ("UnknownKind", .unknownKind), ("IllegalOp", .illegalOp), ("IllegalOperand", .illegalOperand),
    ("Capacity", .capacity)].lookup s

def parseCondArg : List Tok → Option (CondArg × List Tok)
  | .word "true" :: ts => some (.bool true, ts)
  | .word "false" :: ts => some (.bool false, ts)
  | .byteLit b :: ts => some (.num b.toNat, ts)
  | .num n :: ts => some (.num n, ts)
  | .sym "-" :: ts => (parsePos (.sym "-" :: ts)).map (fun r => (.num r.1, r.2))
  | .sym "[" :: ts => (parseSeqArg (.sym "[" :: ts)).map (fun r => (.arg (.seq r.1), r.2))
  | .word w :: ts =>
    match statusOfName w with
    | some st => some (.status st, ts)
    | none =>
      if w = "bits" then (parseBitsArg (.word w :: ts)).map (fun r => (.arg r.1, r.2))
      else if w = "standard" ∨ w = "extended" ∨ w = "development" then
        (parseIdArg (.word w :: ts)).map (fun r => (.arg (.ident r.1), r.2))
      else if w = "universal" ∨ w = "manufacturerSpecific" then
        (parseMsgArg (.word w :: ts)).map (fun r => (.arg (.msg r.1), r.2))
      else (parsePath (.word w :: ts)).map (fun r => (.ref r.1, r.2))
  | _ => none

def parseRelation : List Tok → Option (Bool × List Tok)
  | .sym "==" :: ts => some (true, ts)
  | .sym "!=" :: ts => some (false, ts)
  | _ => none

/-- R84: `if <cond> goto <label>`, after the word `if`. DESIGN CHOICE (log entry 13): a condition is a field, `==` or `!=`, and a
status name, `true` or `false`, a number, a literal of an operand, or a field. -/
def parseBranch (ts : List Tok) : Option Line :=
  match parsePath ts with
  | none => none
  | some (lhs, ts) =>
    match parseRelation ts with
    | none => none
    | some (eq, ts) =>
      match parseCondArg ts with
      | some (rhs, [.word "goto", .word l]) => some (.branch lhs eq rhs l)
      | _ => none

/-- R68: the operation of a mnemonic. -/
def opOfMnemonic (m : String) : Option Op := Op.all.find? (fun o => o.mnemonic == m)

/-- R81. -/
def pseudoOfName (m : String) : Option Pseudo :=
  [Pseudo.isBitSet, .highNybble, .lowNybble, .byteFromNybbles].find? (fun p => p.name == m)

/-- R80, R81: `<bind> = <mnemonic> <operand>, ...`, after the `=`. -/
def parseRequest (bind : String) : List Tok → Option Line
  | .word m :: ts =>
    match opOfMnemonic m with
    | some o => (parseArgs (o.format.fields.map Prod.snd) ts).map (fun as => .request bind o as)
    | none =>
      match pseudoOfName m with
      | some p => (parseArgs (p.op.format.fields.map Prod.snd) ts).map (fun as => .pseudo bind p as)
      | none => none
  | _ => none

/-- R80, R84: one line of text: any labels, then at most one request line, branch or `halt`. DESIGN CHOICE (log entry 16): which words
a variable or a label cannot have as its name, and where. -/
def parseToks : List Tok → Option (List Line)
  | [] => some []
  | .word l :: .sym ":" :: ts => (parseToks ts).map (fun ls => .label l :: ls)
  | [.word "halt"] => some [.halt]
  | .word "if" :: ts => (parseBranch ts).map (fun l => [l])
  | .word b :: .sym "=" :: ts => (parseRequest b ts).map (fun l => [l])
  | _ => none

def parseLine (s : String) : Option (List Line) := (lexText s).bind parseToks

/-- R84: a script is a list of lines. -/
def assemble : List String → Option (List Line)
  | [] => some []
  | s :: ss =>
    match parseLine s, assemble ss with
    | some ls, some rest => some (ls ++ rest)
    | _, _ => none

end Sys2Proof.Machine
end

