-- ==== Sys2Proof/Machine/Listing.lean ====
section
/-! DEFINITION. The listing of a request (30_encoding.md R85): `op=0xHH` followed by each operand field as `name=value` in format
order. -/

namespace Sys2Proof.Machine

/-- R85, field by field: the opcode and the named operand fields of the format it selects. DESIGN CHOICE (log entry 18), for a
request that is not of its op's format: names and fields are paired as far as both go, and an `op` outside the map stands alone. -/
def listingFields (r : Request) : List (String × Field) :=
  ("op", .byte r.op) ::
    match opOfCode r.op with
    | some o => (o.format.fields.map Prod.fst).zip r.operands
    | none => []

def hexDigit (n : Nat) : Char := if n < 10 then Char.ofNat (48 + n) else Char.ofNat (55 + n)

/-- `0xHH`. -/
def hexByte (b : Byte) : String := "0x" ++ String.ofList [hexDigit (b.toNat / 16), hexDigit (b.toNat % 16)]

def joinWith (sep : String) : List String → String
  | [] => ""
  | [x] => x
  | x :: xs => x ++ sep ++ joinWith sep xs

def natText (n : Nat) : String := String.ofList (Nat.toDigits 10 n)

def intText : Int → String
  | .ofNat n => natText n
  | .negSucc n => "-" ++ natText (n + 1)

def idText (f : IdField) : String :=
  "(" ++ joinWith "," [natText f.tag.toNat, hexByte f.b0, hexByte f.b1, hexByte f.b2] ++ ")"

def seqText (xs : ByteSeq) : String := "[" ++ joinWith "," (xs.map hexByte) ++ "]"

/-- One field of the listing. A Message field is its sub-fields (R67), in their order. DESIGN CHOICE: how a composite field is
written out, which the spec's examples show in more than one way (log entry 10); and `name=?` for a value that the wire could not
carry (log entry 18). -/
def fieldText (n : String) : Field → String
  | .byte b => n ++ "=" ++ hexByte b
  | .pos p => n ++ "=" ++ intText p
  | .bits xs => n ++ "=[" ++ joinWith "," (xs.map (fun x => natText x.toNat)) ++ "]"
  | .seq xs => n ++ "=" ++ seqText xs
  | .ident f => n ++ "=" ++ idText f
  | .msg f =>
    "msg_tag=" ++ natText f.tag.toNat ++ " hdr=(" ++ joinWith "," [hexByte f.dc, hexByte f.s1, hexByte f.s2] ++ ") id="
      ++ idText f.id ++ " payload=" ++ seqText f.payload
  | .nat k => n ++ "=" ++ natText k
  | .uncarried => n ++ "=?"

/-- R85. -/
def listing (r : Request) : String := joinWith " " ((listingFields r).map (fun f => fieldText f.1 f.2))

end Sys2Proof.Machine
end

