-- ==== Sys2Proof/Tests/Slice0.lean ====
section
/-! SUPPORT. Tests of the model, each about one small piece, with expected results from 30_encoding.md and 95_test_vectors.md; and,
for every statement with hypotheses, a theorem that shows something that meets them. -/

namespace Sys2Proof.Tests

open Sys2Proof Sys2Proof.Machine

/-- The response that an instruction answers after reset. -/
def answer (i : Instr) (s : State) : Option Response :=
  match exec i s with
  | .next t => t.responses.getLast?
  | .fault _ => none
  | .refused _ => none

/-- The block with the smallest bounds that 92_eei_decisions.md D5 and D22 allow. -/
def tight : State := { State.reset with params := { Params.block with posW := some 4, maxSeqLen := some 8 } }

/-- The block with the alternatives of D14 and D17. -/
def alternative : State :=
  { State.reset with params := { Params.block with unpackHighBit := .or, stdIdHighRegion := .standard } }

def serving (q : Request) : State := { State.reset with current := some q }

/-! ## Well-formedness: one ill-formed term for each check (R65, R66, R67) -/

theorem test_wf_bit_element : (Instr.byteOfBits [1#8, 2#8]).wellFormed = false := by decide
theorem test_wf_id_tag : (Instr.mfgIdPack { tag := 3#8, b0 := 0#8, b1 := 0#8, b2 := 0#8 }).wellFormed = false := by decide
theorem test_wf_msg_tag :
    (Instr.sysexEncode { tag := 3#8, dc := 0#8, s1 := 0#8, s2 := 0#8, id := developmentField, payload := [] }).wellFormed
      = false := by decide
theorem test_wf_used_id_tag :
    (Instr.sysexEncode (manufacturerField { developmentField with tag := 7#8 } [1#8, 2#8])).wellFormed = false := by decide
theorem test_wf_unused_id_tag :
    (Instr.sysexEncode { universalField 0#8 0x7F#8 0x06#8 0x01#8 [] with id := { developmentField with tag := 7#8 } }).wellFormed
      = true := by decide

/-! ## Decoding, from requests written out of R63 and R68 -/

theorem test_decode_bit_get :
    decode { op := 0b00000001#8, operands := [.byte 0x80#8, .pos 7] } = .ok (.bitGet 0x80#8 7) ∧
      decodeTableWord 8 0x1 = some (.bitGet 0#8 0) := ⟨rfl, rfl⟩
theorem test_decode_bit_set :
    decode { op := 0b00000010#8, operands := [.byte 0x00#8, .pos 3] } = .ok (.bitSet 0x00#8 3) ∧
      decodeTableWord 8 0x2 = some (.bitSet 0#8 0) := ⟨rfl, rfl⟩
theorem test_decode_bit_clear :
    decode { op := 0b00000011#8, operands := [.byte 0xFF#8, .pos (-5)] } = .ok (.bitClear 0xFF#8 (-5)) ∧
      decodeTableWord 8 0x3 = some (.bitClear 0#8 0) := ⟨rfl, rfl⟩
theorem test_decode_nybble_split :
    decode { op := 0b00000100#8, operands := [.byte 0x3C#8] } = .ok (.nybbleSplit 0x3C#8) ∧
      decodeTableWord 8 0x4 = some (.nybbleSplit 0#8) := ⟨rfl, rfl⟩
theorem test_decode_nybble_join :
    decode { op := 0b00000101#8, operands := [.byte 0x0C#8, .byte 0x03#8] } = .ok (.nybbleJoin 0x0C#8 0x03#8) ∧
      decodeTableWord 8 0x5 = some (.nybbleJoin 0#8 0#8) := ⟨rfl, rfl⟩
theorem test_decode_bit_range_replace :
    decode { op := 0b00000110#8, operands := [.byte 0xBC#8, .pos 0, .pos 3, .byte 0x05#8] } = .ok (.bitRangeReplace 0xBC#8 0 3 0x05#8) ∧
      decodeTableWord 8 0x6 = some (.bitRangeReplace 0#8 0 0 0#8) := ⟨rfl, rfl⟩
theorem test_decode_bits_of_byte :
    decode { op := 0b00000111#8, operands := [.byte 0x01#8] } = .ok (.bitsOfByte 0x01#8) ∧
      decodeTableWord 8 0x7 = some (.bitsOfByte 0#8) := ⟨rfl, rfl⟩
theorem test_decode_byte_of_bits :
    decode { op := 0b00001000#8, operands := [.bits [1#8, 2#8]] } = .ok (.byteOfBits [1#8, 2#8]) ∧
      decodeTableWord 8 0x8 = some (.byteOfBits []) := ⟨rfl, rfl⟩
theorem test_decode_pack_7bit :
    decode { op := 0b00010000#8, operands := [.seq [0xC0#8, 0x01#8]] } = .ok (.pack7bit [0xC0#8, 0x01#8]) ∧
      decodeTableWord 8 0x10 = some (.pack7bit []) := ⟨rfl, rfl⟩
theorem test_decode_unpack_7bit :
    decode { op := 0b00010001#8, operands := [.seq [0x09#8, 0x40#8]] } = .ok (.unpack7bit [0x09#8, 0x40#8]) ∧
      decodeTableWord 8 0x11 = some (.unpack7bit []) := ⟨rfl, rfl⟩
theorem test_decode_mfg_id_pack :
    decode { op := 0b00100000#8, operands := [.ident (extendedField 0x20#8 0x29#8)] } = .ok (.mfgIdPack (extendedField 0x20#8 0x29#8)) ∧
      decodeTableWord 8 0x20 = some (.mfgIdPack (standardField 0#8)) := ⟨rfl, rfl⟩
theorem test_decode_mfg_id_unpack :
    decode { op := 0b00100001#8, operands := [.seq [0x40#8]] } = .ok (.mfgIdUnpack [0x40#8]) ∧
      decodeTableWord 8 0x21 = some (.mfgIdUnpack []) := ⟨rfl, rfl⟩
theorem test_decode_sysex_parse :
    decode { op := 0b00110000#8, operands := [.seq [0xF0#8, 0xF7#8]] } = .ok (.sysexParse [0xF0#8, 0xF7#8]) ∧
      decodeTableWord 8 0x30 = some (.sysexParse []) := ⟨rfl, rfl⟩
theorem test_decode_sysex_encode :
    decode { op := 0b00110001#8, operands := [.msg (manufacturerField developmentField [0x01#8, 0x02#8])] } = .ok (.sysexEncode (manufacturerField developmentField [0x01#8, 0x02#8])) ∧
      decodeTableWord 8 0x31 = some (.sysexEncode (universalField 0#8 0#8 0#8 0#8 [])) := ⟨rfl, rfl⟩
theorem test_decode_unassigned :
    [0x00, 0x09, 0x0F, 0x12, 0x1F, 0x22, 0x2F, 0x32, 0xFF].map (decodeTableWord 8) = List.replicate 9 none := by decide
theorem test_table_word_bits : decodeTableWord 16 0x01 = none ∧ decodeTableWord 8 0x101 = none := ⟨rfl, rfl⟩
theorem test_fetched_word_runs :
    step (State.reset.withFetchWord 8 0x30) = exec (.sysexParse []) (State.reset.withFetchWord 8 0x30) := rfl

/-! ## One request (95_test_vectors.md parts 2 to 6) -/

theorem test_bit_get_top : answer (.bitGet 0x80#8 7) State.reset =
    some (okFields [.byte 1#8]) := by decide
theorem test_bit_get_outside : answer (.bitGet 0xFF#8 8) State.reset =
    some (okFields [.byte 0#8]) := by decide
theorem test_bit_set_inside : answer (.bitSet 0x7F#8 7) State.reset =
    some (okFields [.byte 0xFF#8]) := by decide
theorem test_bit_set_negative : answer (.bitSet 0x00#8 (-1)) State.reset =
    some (okFields [.byte 0x00#8]) := by decide
theorem test_bit_clear_inside : answer (.bitClear 0xFF#8 0) State.reset =
    some (okFields [.byte 0xFE#8]) := by decide
theorem test_bit_clear_outside : answer (.bitClear 0xFF#8 8) State.reset =
    some (okFields [.byte 0xFF#8]) := by decide
theorem test_nybble_split_order : answer (.nybbleSplit 0xA5#8) State.reset =
    some (okFields [.byte 0x0A#8, .byte 0x05#8]) := by decide
theorem test_nybble_join_order : answer (.nybbleJoin 0x07#8 0x0D#8) State.reset =
    some (okFields [.byte 0x7D#8]) := by decide
theorem test_nybble_join_unmasked : answer (.nybbleJoin 0x1A#8 0x35#8) State.reset =
    some (okFields [.byte 0xB5#8]) := by decide
theorem test_bit_range_replace_extends : answer (.bitRangeReplace 0xAA#8 2 4 0x01#8) State.reset =
    some (okFields [.byte 0xA6#8]) := by decide
theorem test_bit_range_replace_truncates : answer (.bitRangeReplace 0xAA#8 2 4 0x0F#8) State.reset =
    some (okFields [.byte 0xBE#8]) := by decide
theorem test_bits_of_byte_order : answer (.bitsOfByte 0xA5#8) State.reset =
    some (okFields [.bits [1#8, 0#8, 1#8, 0#8, 0#8, 1#8, 0#8, 1#8]]) := by decide
theorem test_bits_of_byte_top : answer (.bitsOfByte 0x80#8) State.reset =
    some (okFields [.bits [0#8, 0#8, 0#8, 0#8, 0#8, 0#8, 0#8, 1#8]]) := by decide
theorem test_byte_of_bits_partial : answer (.byteOfBits [0#8, 1#8]) State.reset =
    some (okFields [.byte 0x02#8]) := by decide
theorem test_byte_of_bits_illegal : answer (.byteOfBits [1#8, 2#8]) State.reset =
    some (failed 0x81#8 .none) := by decide
theorem test_pack_7bit_order : answer (.pack7bit [0x7F#8, 0x80#8, 0x01#8]) State.reset =
    some (okFields [.seq [0x02#8, 0x7F#8, 0x00#8, 0x01#8]]) := by decide
theorem test_pack_7bit_second_group : answer (.pack7bit (List.replicate 8 0xFF#8)) State.reset =
    some (okFields [.seq (List.replicate 8 0x7F#8 ++ [0x01#8, 0x7F#8])]) := by decide
theorem test_unpack_7bit_assigns : answer (.unpack7bit [0x00#8, 0x81#8]) State.reset =
    some (okFields [.seq [0x01#8]]) := by decide
theorem test_unpack_7bit_last_index : answer (.unpack7bit [0x40#8, 0x01#8, 0x02#8, 0x03#8, 0x04#8, 0x05#8, 0x06#8, 0x07#8, 0x01#8, 0x09#8]) State.reset =
    some (okFields [.seq [0x01#8, 0x02#8, 0x03#8, 0x04#8, 0x05#8, 0x06#8, 0x87#8, 0x89#8]]) := by decide
theorem test_mfg_id_pack_order : answer (.mfgIdPack (extendedField 0x20#8 0x29#8)) State.reset =
    some (okFields [.seq [0x00#8, 0x20#8, 0x29#8]]) := by decide
theorem test_mfg_id_pack_refuses : answer (.mfgIdPack { tag := 1#8, b0 := 0x01#8, b1 := 0x02#8, b2 := 0x03#8 }) State.reset =
    some (failed 0x03#8 (.bytes [0x01#8, 0x02#8, 0x03#8])) := by decide
theorem test_mfg_id_unpack_order : answer (.mfgIdUnpack [0x00#8, 0x20#8, 0x29#8, 0x55#8]) State.reset =
    some (okFields [.ident (extendedField 0x20#8 0x29#8), .nat 3]) := by decide
theorem test_mfg_id_unpack_rejects : answer (.mfgIdUnpack [0x60#8]) State.reset =
    some (failed 0x03#8 (.bytes [0x60#8])) := by decide
theorem test_sysex_parse_universal : answer (.sysexParse [0xF0#8, 0x7F#8, 0x7F#8, 0x04#8, 0x01#8, 0x00#8, 0x7F#8, 0xF7#8]) State.reset =
    some (okFields [.msg (universalField 1#8 0x7F#8 0x04#8 0x01#8 [0x00#8, 0x7F#8])]) := by decide
theorem test_sysex_parse_length_first : answer (.sysexParse [0x41#8, 0x40#8, 0xF7#8]) State.reset =
    some (failed 0x02#8 (.offset 0)) := by decide
theorem test_sysex_encode_order : answer (.sysexEncode (universalField 0#8 0x7F#8 0x06#8 0x01#8 [])) State.reset =
    some (okFields [.seq [0xF0#8, 0x7E#8, 0x7F#8, 0x06#8, 0x01#8, 0xF7#8]]) := by decide
theorem test_sysex_encode_unused_id : answer (.sysexEncode { universalField 0#8 0x7F#8 0x06#8 0x01#8 [] with id := { developmentField with tag := 7#8 } }) State.reset =
    some (okFields [.seq [0xF0#8, 0x7E#8, 0x7F#8, 0x06#8, 0x01#8, 0xF7#8]]) := by decide

/-- D14 and D17: vectors U-7 and 0x61 under the alternatives. -/
theorem test_alternatives :
    answer (.unpack7bit [0x00#8, 0x81#8]) alternative = some (okFields [.seq [0x81#8]]) ∧
      answer (.mfgIdUnpack [0x61#8]) alternative = some (okFields [.ident (standardField 0x61#8), .nat 1]) := by decide

/-! ## The interface, listings and scripts (R70, R85, R80, R81, R84) -/

theorem test_status_codes :
    [Status.ok, .badFormat, .invalidData, .invalidManufacturer, .unknownKind, .illegalOp, .illegalOperand, .capacity].map statusCode
      = [0x00#8, 0x01#8, 0x02#8, 0x03#8, 0x04#8, 0x80#8, 0x81#8, 0x82#8] := by decide
theorem test_result_formats :
    Op.all.map Op.resFormat = [.bool, .b, .b, .nyb, .b, .b, .bits, .b, .seq, .seq, .seq, .idn, .msg, .seq] := by decide
theorem test_listing : listing { op := 0x01#8, operands := [.byte 0x80#8, .pos 7] } = "op=0x01 b=0x80 p=7" := by decide
theorem test_parse_line :
    parseLine "v = bit_set 0x00, 3" = some [.request "v" .bitSet [.byte (.lit 0x00#8), .pos 3]] := by decide
theorem test_parse_pseudo : parseLine "x = is_bit_set 0b10000000, -1" =
    some [.pseudo "x" .isBitSet [.byte (.lit 0x80#8), .pos (-1)]] := by decide
theorem test_parse_branch : parseLine "good: if m.status == OK goto good" =
    some [.label "good", .branch { var := "m", fields := ["status"] } true (.status .ok) "good"] := by decide

/-! ## Witnesses: what meets the hypotheses of the statements -/

theorem posOk_tight (p : Int) (h : -8 ≤ p ∧ p ≤ 7) : PosOk tight p := by
  intro w hw
  have : w = 4 := by simpa [tight, State.reset, Params.block, eq_comm] using hw
  subst this
  norm_num
  omega

theorem posOk_reset (p : Int) : PosOk State.reset p := by intro w hw; cases hw

theorem lenOk_tight (n : Nat) (h : n ≤ 8) : LenOk tight n := by
  intro m hm
  have : m = 8 := by simpa [tight, State.reset, Params.block, eq_comm] using hm
  omega

theorem not_lenOk_tight (n : Nat) (h : 8 < n) : ¬ LenOk tight n := by
  intro c
  have := c 8 rfl
  omega

theorem not_posOk_tight (p : Int) (h : p < -8 ∨ 7 < p) : ¬ PosOk tight p := by
  intro c
  have := c 4 rfl
  norm_num at this
  omega

theorem lenOk_reset (n : Nat) : LenOk State.reset n := by intro m hm; cases hm

def bitGetRequest : Request := { op := 0x01#8, operands := [.byte 0x80#8, .pos 7] }

theorem witness_StepExecutesTheDecodedRequest :
    (serving bitGetRequest).resetLine = false ∧ (serving bitGetRequest).current = some bitGetRequest ∧
      decode bitGetRequest = .ok (.bitGet 0x80#8 7) := ⟨rfl, rfl, rfl⟩

/-- The values next to assigned ones: 0x00, 0x09, 0x0F, 0x12, 0xFF. -/
theorem witness_UnassignedOpcodeAnswersIllegalOp :
    (∀ c ∈ [0x00#8, 0x09#8, 0x0F#8, 0x12#8, 0xFF#8], c.toNat ∉ opcodes) ∧
      (serving { op := 0x09#8, operands := [] }).resetLine = false ∧
      (serving { op := 0x09#8, operands := [] }).current = some { op := 0x09#8, operands := [] } := by decide

theorem witness_WrongOperandFieldsAnswerIllegalOperand :
    (0x01#8 : Byte).toNat ∈ opcodes ∧ (0x01, [.byte, .pos]) ∈ operandKinds ∧
      [Field.byte 0x80#8, .uncarried].map Field.kind ≠ [some .byte, some .pos] ∧
      [Field.byte 0x80#8].map Field.kind ≠ [some .byte, some .pos] ∧
      (serving { op := 0x01#8, operands := [.byte 0x80#8, .uncarried] }).resetLine = false := by decide

def waiting : State := { State.reset with queue := [bitGetRequest, { op := 0x00#8, operands := [] }] }

theorem witness_OldestRequestIsAccepted :
    waiting.resetLine = false ∧ waiting.current = none ∧ waiting.queue = bitGetRequest :: [{ op := 0x00#8, operands := [] }] ∧
      State.reset.resetLine = false ∧ State.reset.current = none ∧ State.reset.queue = [] := by decide

def interrupted : State := { waiting with resetLine := true, current := some bitGetRequest }

theorem witness_ResetAbandonsTheRequestInService :
    interrupted.resetLine = true ∧ interrupted.queue = bitGetRequest :: [{ op := 0x00#8, operands := [] }] ∧
      interrupted.current = some bitGetRequest ∧ (serving bitGetRequest).params = interrupted.params ∧
      Serves bitGetRequest { interrupted with resetLine := false } (okFields [.byte 1#8]) :=
  ⟨rfl, rfl, rfl, rfl, fun _ _ => rfl⟩

theorem witness_EveryRequestGetsExactlyOneResponse :
    (serving bitGetRequest).resetLine = false ∧ (serving bitGetRequest).current = some bitGetRequest := by decide

theorem witness_ResponseDependsOnTheRequestAlone :
    (serving bitGetRequest).resetLine = false ∧ (serving bitGetRequest).current = some bitGetRequest := by decide

theorem witness_QueueIsServedInOrder :
    waiting.resetLine = false ∧ waiting.current = none ∧ waiting.queue.length = 2 := by decide

/-- A state that no run reaches, with a response that no step delivers. -/
theorem witness_UnknownKindIsNeverReturned :
    step { State.reset with responses := [failed 0x04#8 .none] } = .next { State.reset with responses := [failed 0x04#8 .none] } ∧
      failed 0x04#8 .none ∈ [failed 0x04#8 .none] ∧ (failed 0x04#8 .none).status = 0x04#8 := ⟨rfl, by decide, rfl⟩

theorem witness_NoStepChangesAParameter : step State.reset = .next State.reset := rfl

theorem witness_StepKeepsResponsesWellFormed :
    safeState (serving bitGetRequest) = true ∧
      step (serving bitGetRequest) = .next { State.reset with responses := [okFields [.byte 1#8]] } := ⟨by decide, rfl⟩

/-- Positions at and beyond the ends of a Byte, at the ends of what four bits carry. -/
theorem witness_BitGetReadsTheBit : PosOk tight 0 ∧ PosOk tight 7 ∧ PosOk tight (-1) ∧ PosOk tight (-8) ∧ PosOk State.reset 8 :=
  ⟨posOk_tight _ (by decide), posOk_tight _ (by decide), posOk_tight _ (by decide), posOk_tight _ (by decide), posOk_reset _⟩

theorem witness_BitSetSetsTheBit : PosOk tight 0 ∧ PosOk tight 7 ∧ PosOk tight (-8) ∧ PosOk State.reset 8 ∧ (7 : Nat) < 8 :=
  ⟨posOk_tight _ (by decide), posOk_tight _ (by decide), posOk_tight _ (by decide), posOk_reset _, by decide⟩

theorem witness_BitClearClearsTheBit : PosOk tight 0 ∧ PosOk tight 7 ∧ PosOk tight (-8) ∧ PosOk State.reset 8 ∧ (7 : Nat) < 8 :=
  ⟨posOk_tight _ (by decide), posOk_tight _ (by decide), posOk_tight _ (by decide), posOk_reset _, by decide⟩

theorem witness_NybbleJoinJoinsTheNybbles : (7 : Nat) < 8 ∧ (0x0F#8 : Byte).toNat ≤ 15 ∧ (0x00#8 : Byte).toNat ≤ 15 := by decide

/-- The whole Byte, one bit, and ranges just outside. -/
theorem witness_BitRangeReplaceWritesTheRange :
    PosOk tight 0 ∧ PosOk tight 7 ∧ PosOk tight (-1) ∧ PosOk State.reset 8 ∧ (0 : Int) ≤ 0 ∧ (0 : Int) ≤ 7 ∧ (7 : Int) ≤ 7 ∧
      (7 : Nat) < 8 ∧ ¬ ((0 : Int) ≤ -1 ∧ (-1 : Int) ≤ 3 ∧ (3 : Int) ≤ 7) ∧ ¬ ((0 : Int) ≤ 5 ∧ (5 : Int) ≤ 8 ∧ (8 : Int) ≤ 7) ∧
      ¬ ((0 : Int) ≤ 4 ∧ (4 : Int) ≤ 2 ∧ (2 : Int) ≤ 7) :=
  ⟨posOk_tight _ (by decide), posOk_tight _ (by decide), posOk_tight _ (by decide), posOk_reset _, by decide, by decide, by decide,
    by decide, by decide, by decide, by decide⟩

theorem witness_BitsOfByteListsTheBits : LenOk tight 8 ∧ (7 : Nat) < 8 := ⟨lenOk_tight _ (by decide), by decide⟩

theorem witness_ByteOfBitsCollectsTheBits :
    (∀ x ∈ [1#8, 0#8, 1#8], x = 0#8 ∨ x = (1#8 : Byte)) ∧ LenOk tight [1#8, 0#8, 1#8].length ∧
      (∀ x ∈ List.replicate 8 1#8, x = 0#8 ∨ x = (1#8 : Byte)) ∧ LenOk tight (List.replicate 8 1#8).length ∧
      (∃ x ∈ [1#8, 2#8], x ≠ 0#8 ∧ x ≠ (1#8 : Byte)) :=
  ⟨by decide, lenOk_tight _ (by decide), by decide, lenOk_tight _ (by decide), by decide⟩

/-- One witness for each of the laws (a) to (f), at the ends of the positions. -/
theorem witness_BitAndNybbleLaws :
    Answers (.bitsOfByte 0xA5#8) tight (okFields [.bits [1#8, 0#8, 1#8, 0#8, 0#8, 1#8, 0#8, 1#8]]) ∧ LenOk tight 8 ∧
      Answers (.nybbleSplit 0xA5#8) tight (okFields [.byte 0x0A#8, .byte 0x05#8]) ∧
      Answers (.bitSet 0x7F#8 7) tight (okFields [.byte 0xFF#8]) ∧ PosOk tight 7 ∧
      Answers (.bitClear 0xFF#8 0) tight (okFields [.byte 0xFE#8]) ∧ PosOk tight 0 ∧
      PosOk tight (-1) ∧ PosOk State.reset 8 ∧
      Answers (.bitRangeReplace 0xAA#8 2 4 0x03#8) tight (okFields [.byte 0xAE#8]) ∧ ¬ ((2 : Int) ≤ 5 ∧ (5 : Int) ≤ 4) ∧
      [0#8, 1#8].length ≤ 8 ∧ Answers (.byteOfBits [0#8, 1#8]) tight (okFields [.byte 0x02#8]) ∧
      (List.replicate 8 1#8).length ≤ 8 ∧ Answers (.byteOfBits (List.replicate 8 1#8)) tight (okFields [.byte 0xFF#8]) :=
  ⟨rfl, lenOk_tight _ (by decide), rfl, rfl, posOk_tight _ (by decide), rfl, posOk_tight _ (by decide),
    posOk_tight _ (by decide), posOk_reset _, rfl, by decide, by decide, rfl, by decide, rfl⟩

theorem witness_ChunkSplitsIntoConsecutiveGroups : 1 ≤ 1 ∧ [3#8] ∈ (chunk [1#8, 2#8, 3#8] 2) ∧
    [1#8, 2#8] ∈ (chunk [1#8, 2#8, 3#8] 2).dropLast := by decide

/-- Seven bytes fill one group, and pack to eight. -/
theorem witness_PackEmitsIndexAndMaskedBytes :
    LenOk tight ((List.replicate 7 0x80#8).length + ((List.replicate 7 0x80#8).length + 6) / 7) ∧
      6 < (List.replicate 7 0x80#8).length ∧ 0 < ((List.replicate 7 0x80#8).length + 6) / 7 ∧ LenOk tight (0 + (0 + 6) / 7) :=
  ⟨lenOk_tight _ (by decide), by decide, by decide, lenOk_tight _ (by decide)⟩

theorem witness_UnpackAssignsTheHighBit :
    tight.params.unpackHighBit = .assign ∧ LenOk tight (List.replicate 8 0x80#8).length ∧
      6 < (List.replicate 8 (0x80#8 : Byte)).length - ((List.replicate 8 (0x80#8 : Byte)).length + 7) / 8 :=
  ⟨rfl, lenOk_tight _ (by decide), by decide⟩

theorem witness_UnpackOrsTheHighBitUnderTheAlternative :
    alternative.params.unpackHighBit = .or ∧ LenOk alternative [0x00#8, 0x81#8].length ∧
      0 < [0x00#8, (0x81#8 : Byte)].length - ([0x00#8, (0x81#8 : Byte)].length + 7) / 8 :=
  ⟨rfl, (by intro m hm; cases hm), by decide⟩

theorem witness_UnpackInvertsPack :
    Answers (.pack7bit [0x7F#8, 0x80#8, 0x01#8]) tight (okFields [.seq [0x02#8, 0x7F#8, 0x00#8, 0x01#8]]) ∧
      LenOk tight [0x02#8, 0x7F#8, 0x00#8, 0x01#8].length ∧
      Answers (.pack7bit []) tight (okFields [.seq []]) := ⟨rfl, lenOk_tight _ (by decide), rfl⟩

/-- One that packing gives back, one with an index byte alone, one with an unused index bit. -/
theorem witness_PackInvertsUnpackOnlyOnPackedData :
    tight.params.unpackHighBit = .assign ∧ Answers (.unpack7bit [0x01#8, 0x7F#8]) tight (okFields [.seq [0xFF#8]]) ∧
      Answers (.unpack7bit [0x55#8]) tight (okFields [.seq []]) ∧
      Answers (.unpack7bit [0xFF#8, 0x01#8]) tight (okFields [.seq [0x81#8]]) ∧ LenOk tight 2 ∧ LenOk tight 1 :=
  ⟨rfl, rfl, rfl, rfl, lenOk_tight _ (by decide), lenOk_tight _ (by decide)⟩

theorem witness_IdentifierPackGivesWireBytes :
    (EncodableField (standardField 0x60#8) ∧ EncodableField (extendedField 0x00#8 0x0E#8) ∧ EncodableField developmentField ∧
      LenOk tight 3) ∧
    (∀ b ∈ [0x00#8, 0x7D#8, 0x7E#8, 0x7F#8], (standardField b).tag.toNat ≤ 2 ∧ ¬ EncodableField (standardField b)) ∧
    ¬ EncodableField { tag := 1#8, b0 := 0x01#8, b1 := 0x02#8, b2 := 0x03#8 } ∧ 3 ≤ (3#8 : Byte).toNat := by
  refine ⟨⟨?_, ?_, ?_, lenOk_tight _ (by decide)⟩, ?_, ?_, by decide⟩ <;> unfold EncodableField <;> decide

/-- The lead bytes where the clauses meet: 0x00, 0x01, 0x5F, 0x60, 0x61, 0x7C, 0x7D, 0x7E, 0x7F, 0x80, 0xFF. -/
theorem witness_IdentifierUnpackClassifiesTheLeadByte :
    LenOk tight (0x00#8 :: [0x00#8]).length ∧ [(0x00#8 : Byte)].length < 2 ∧ 2 ≤ [0x00#8, (0x0E#8 : Byte)].length ∧
      (∀ a ∈ [0x01#8, (0x5F#8 : Byte)], 1 ≤ a.toNat ∧ a.toNat ≤ 0x5F) ∧
      (∀ a ∈ [0x61#8, (0x7C#8 : Byte)], 0x61 ≤ a.toNat ∧ a.toNat ≤ 0x7C) ∧
      State.reset.params.stdIdHighRegion = .invalid ∧ alternative.params.stdIdHighRegion = .standard ∧
      (∀ a ∈ [0x60#8, 0x7E#8, 0x7F#8, 0x80#8, (0xFF#8 : Byte)], a = 0x60#8 ∨ a = 0x7E#8 ∨ a = 0x7F#8 ∨ 0x80 ≤ a.toNat) :=
  ⟨lenOk_tight _ (by decide), by decide, by decide, by decide, by decide, rfl, rfl, by decide⟩

theorem witness_IdentifierCodecLaws :
    Answers (.mfgIdUnpack [0x00#8, 0x20#8, 0x29#8, 0x55#8]) tight (okFields [.ident (extendedField 0x20#8 0x29#8), .nat 3]) ∧
      LenOk tight 3 ∧ Answers (.mfgIdPack (extendedField 0x20#8 0x29#8)) tight (okFields [.seq [0x00#8, 0x20#8, 0x29#8]]) ∧
      tight.params.stdIdHighRegion = .invalid ∧ LenOk tight [0x00#8, 0x20#8, 0x29#8].length ∧
      0x80 ≤ (0x80#8 : Byte).toNat ∧ 0x61 ≤ (0x7C#8 : Byte).toNat ∧ (0x7C#8 : Byte).toNat ≤ 0x7C ∧
      Answers (.sysexParse [0xF0#8, 0x7D#8, 0x01#8, 0x02#8, 0xF7#8]) tight
        (okFields [.msg (manufacturerField developmentField [0x01#8, 0x02#8])]) :=
  ⟨rfl, lenOk_tight _ (by decide), rfl, rfl, lenOk_tight _ (by decide), by decide, by decide, by decide, rfl⟩

/-- Frames of four, five and six bytes, and each class of byte 1 at its shortest. -/
theorem witness_SysexParseChecksAndClassifies :
    LenOk tight [0xF0#8, 0x40#8, 0x00#8, 0xF7#8].length ∧ [0xF0#8, 0x40#8, 0x00#8, (0xF7#8 : Byte)].length < 5 ∧
      (5 ≤ [0x41#8, 0x40#8, 0x00#8, 0x00#8, 0xF7#8].length ∧ at' [0x41#8, 0x40#8, 0x00#8, 0x00#8, 0xF7#8] 0 ≠ 0xF0#8) ∧
      at' [0xF0#8, 0x40#8, 0x00#8, 0x00#8, 0x41#8] ([0xF0#8, 0x40#8, 0x00#8, 0x00#8, 0x41#8].length - 1) ≠ 0xF7#8 ∧
      ([0xF0#8, 0x7E#8, 0x7F#8, 0x06#8, 0xF7#8].length = 5 ∧ at' [0xF0#8, 0x7E#8, 0x7F#8, 0x06#8, 0xF7#8] 0 = 0xF0#8 ∧
        at' [0xF0#8, 0x7E#8, 0x7F#8, 0x06#8, 0xF7#8] 4 = 0xF7#8 ∧ at' [0xF0#8, 0x7E#8, 0x7F#8, 0x06#8, 0xF7#8] 1 = 0x7E#8) ∧
      LenOk tight (6 + ([] : ByteSeq).length) ∧ LenOk tight (5 + ([] : ByteSeq).length) ∧
      (2 ≤ [0x01#8, (0x02#8 : Byte)].length ∧ LenOk tight (3 + [0x01#8, 0x02#8].length)) ∧
      (∀ a ∈ [0x01#8, 0x7C#8, 0x80#8, (0xFF#8 : Byte)], a ≠ 0x00#8 ∧ a ≠ 0x7D#8 ∧ a ≠ 0x7E#8 ∧ a ≠ 0x7F#8) :=
  ⟨lenOk_tight _ (by decide), by decide, by decide, by decide, by decide, lenOk_tight _ (by decide), lenOk_tight _ (by decide),
    ⟨by decide, lenOk_tight _ (by decide)⟩, by decide⟩

theorem witness_InteriorBytesAreNotChecked :
    Answers (.sysexParse [0xF0#8, 0x40#8, 0x00#8, 0x00#8, 0x41#8]) tight (failed 0x01#8 .none) ∧
      [0xF0#8, 0x40#8, 0x00#8, 0x00#8, 0x41#8].length = [0xF0#8, 0x40#8, 0xF7#8, 0xF0#8, (0x41#8 : Byte)].length ∧
      at' [0xF0#8, 0x40#8, 0x00#8, 0x00#8, 0x41#8] 0 = at' [0xF0#8, 0x40#8, 0xF7#8, 0xF0#8, 0x41#8] 0 ∧
      at' [0xF0#8, 0x40#8, 0x00#8, 0x00#8, 0x41#8] 1 = at' [0xF0#8, 0x40#8, 0xF7#8, 0xF0#8, 0x41#8] 1 ∧
      at' [0xF0#8, 0x40#8, 0x00#8, 0x00#8, 0x41#8] 4 = at' [0xF0#8, 0x40#8, 0xF7#8, 0xF0#8, 0x41#8] 4 :=
  ⟨rfl, rfl, rfl, rfl, rfl⟩

theorem witness_SysexEncodeEmitsTheFrame :
    ((universalField 0#8 0x7F#8 0x06#8 0x01#8 []).tag = 0#8 ∧ LenOk tight (6 + 0)) ∧
      (universalField 1#8 0x7F#8 0x04#8 0x01#8 []).tag = 1#8 ∧
      ((manufacturerField developmentField []).tag = 2#8 ∧ EncodableField developmentField ∧
        LenOk tight (2 + (idBytes developmentField).length + 0)) ∧
      ((standardField 0x7E#8).tag.toNat ≤ 2 ∧ ¬ EncodableField (standardField 0x7E#8) ∧ LenOk tight 2) ∧
      3 ≤ (3#8 : Byte).toNat ∧ 3 ≤ (7#8 : Byte).toNat := by
  refine ⟨⟨rfl, lenOk_tight _ (by decide)⟩, rfl, ⟨rfl, ?_, lenOk_tight _ (by decide)⟩, ⟨by decide, ?_, lenOk_tight _ (by decide)⟩,
    by decide, by decide⟩ <;> unfold EncodableField <;> decide

theorem witness_ShortFramesAreEncodedAndRejected :
    EncodableField (standardField 0x40#8) ∧ (standardField 0x40#8).tag ≠ 1#8 ∧ EncodableField developmentField ∧
      developmentField.tag ≠ 1#8 ∧ ([] : ByteSeq).length < 2 ∧ [(0x00#8 : Byte)].length < 2 ∧ LenOk tight 5 := by
  refine ⟨?_, by decide, ?_, by decide, by decide, by decide, lenOk_tight _ (by decide)⟩ <;> unfold EncodableField <;> decide

theorem witness_EncodeInvertsParse :
    Answers (.sysexParse [0xF0#8, 0xF7#8, 0xF7#8, 0xF7#8, 0xF7#8]) tight
      (okFields [.msg (manufacturerField (standardField 0xF7#8) [0xF7#8, 0xF7#8])]) ∧ LenOk tight 5 :=
  ⟨rfl, lenOk_tight _ (by decide)⟩

theorem witness_ParseInvertsEncodeOfLongMessages :
    Answers (.sysexEncode (manufacturerField (standardField 0x41#8) [0xF7#8, 0xF0#8])) tight
      (okFields [.seq [0xF0#8, 0x41#8, 0xF7#8, 0xF0#8, 0xF7#8]]) ∧
      ¬ ((manufacturerField (standardField 0x41#8) [0xF7#8, 0xF0#8]).tag = 2#8 ∧ (standardField 0x41#8).tag ≠ 1#8 ∧
        [0xF7#8, (0xF0#8 : Byte)].length < 2) ∧ LenOk tight 5 ∧
      Answers (.sysexEncode (manufacturerField (extendedField 0x00#8 0x0E#8) [])) tight
        (okFields [.seq [0xF0#8, 0x00#8, 0x00#8, 0x0E#8, 0xF7#8]]) :=
  ⟨rfl, by decide, lenOk_tight _ (by decide), rfl⟩

/-- Nine is one above the bound, and minus nine and eight are one outside what four bits carry. -/
theorem witness_IllegalOperandExactlyOutsideTheDomain :
    (Instr.byteOfBits [2#8]).wellFormed = false ∧ (8 : Int) ∈ positions (.bitGet 0xFF#8 8) ∧ ¬ PosOk tight 8 ∧
      ¬ PosOk tight (-9) ∧ Answers (.bitGet 0xFF#8 8) tight (failed 0x81#8 .none) ∧
      Answers (.byteOfBits [2#8]) tight (failed 0x81#8 .none) :=
  ⟨by decide, by decide, not_posOk_tight _ (by decide), not_posOk_tight _ (by decide), rfl, rfl⟩

theorem witness_CapacityForSequencesAboveTheBound :
    ((Instr.pack7bit (List.replicate 9 0#8)).wellFormed = true ∧ positions (.pack7bit (List.replicate 9 0#8)) = [] ∧
      9 ∈ operandLengths (.pack7bit (List.replicate 9 0#8)) ∧ ¬ LenOk tight 9) ∧
      (LenOk tight 8 ∧ ¬ LenOk tight (8 + (8 + 6) / 7)) ∧ (LenOk tight 3 ∧ ¬ LenOk tight (6 + 3)) ∧
      (EncodableField developmentField ∧ LenOk tight 6 ∧ ¬ LenOk tight (2 + (idBytes developmentField).length + 6)) ∧
      (tight.params.legal = true ∧ Answers (.pack7bit [0x80#8]) tight (okFields [.seq [0x01#8, 0x00#8]])) ∧
      State.reset.params.maxSeqLen = none := by
  refine ⟨⟨by decide, rfl, by decide, not_lenOk_tight _ (by decide)⟩, ⟨lenOk_tight _ (by decide), not_lenOk_tight _ (by decide)⟩,
    ⟨lenOk_tight _ (by decide), not_lenOk_tight _ (by decide)⟩, ⟨?_, lenOk_tight _ (by decide), not_lenOk_tight _ (by decide)⟩,
    ⟨by decide, rfl⟩, rfl⟩
  unfold EncodableField; decide

theorem witness_EachOperationReturnsOnlyItsStatuses :
    tight.params.legal = true ∧ Answers (.mfgIdUnpack [0x60#8]) tight (failed 0x03#8 (.bytes [0x60#8])) := ⟨by decide, rfl⟩

/-- Two errors at once, in each place where the order decides. -/
theorem witness_ErrorsAreReportedInTheirOrder :
    (0x00#8 : Byte).toNat ∉ opcodes ∧ (Instr.byteOfBits (List.replicate 9 2#8)).wellFormed = false ∧
      ((Instr.sysexParse (List.replicate 9 0#8)).wellFormed = true ∧ 9 ∈ operandLengths (.sysexParse (List.replicate 9 0#8)) ∧
        ¬ LenOk tight 9) ∧
      (LenOk tight [0x41#8, 0x40#8, 0xF7#8].length ∧ [0x41#8, 0x40#8, (0xF7#8 : Byte)].length < 5) ∧
      (5 ≤ [0x41#8, 0x40#8, 0x00#8, 0x00#8, 0x41#8].length ∧ at' [0x41#8, 0x40#8, 0x00#8, 0x00#8, 0x41#8] 0 ≠ 0xF0#8) ∧
      at' [0xF0#8, 0x7F#8, 0x00#8, 0x00#8, 0xF7#8] 1 = 0x7F#8 ∧
      (LenOk tight ([0x00#8].length + 1) ∧ [(0x00#8 : Byte)].length < 2) ∧
      ((manufacturerField (standardField 0x7E#8) (List.replicate 7 0#8)).tag = 2#8 ∧ (standardField 0x7E#8).tag.toNat ≤ 2 ∧
        ¬ EncodableField (standardField 0x7E#8) ∧ LenOk tight 7) ∧
      (EncodableField (standardField 0x40#8) ∧ LenOk tight 6 ∧ ¬ LenOk tight (2 + (idBytes (standardField 0x40#8)).length + 6)) ∧
      (LenOk tight 3 ∧ ¬ LenOk tight (6 + 3)) ∧ (LenOk tight 8 ∧ ¬ LenOk tight (8 + (8 + 6) / 7)) := by
  refine ⟨by decide, by decide, ⟨by decide, by decide, not_lenOk_tight _ (by decide)⟩, ⟨lenOk_tight _ (by decide), by decide⟩,
    ⟨by decide, by decide⟩, rfl, ⟨lenOk_tight _ (by decide), by decide⟩, ⟨rfl, by decide, ?_, lenOk_tight _ (by decide)⟩,
    ⟨?_, lenOk_tight _ (by decide), not_lenOk_tight _ (by decide)⟩, ⟨lenOk_tight _ (by decide), not_lenOk_tight _ (by decide)⟩,
    ⟨lenOk_tight _ (by decide), not_lenOk_tight _ (by decide)⟩⟩ <;> unfold EncodableField <;> decide

/-- Every kind of line, with a branch that is taken and one that is not. -/
def script : List Line :=
  [.label "top", .request "v" .bitSet [.byte (.lit 0x00#8), .pos 3], .branch { var := "v", fields := ["status"] } true (.status .ok) "top",
    .pseudo "n" .lowNybble [.byte (.lit 0xA5#8)], .pseudo "h" .highNybble [.byte (.lit 0xA5#8)],
    .pseudo "g" .isBitSet [.byte (.lit 0x80#8), .pos 7], .pseudo "j" .byteFromNybbles [.byte (.lit 0x0A#8), .byte (.lit 0x05#8)],
    .branch { var := "v", fields := ["status"] } false (.status .ok) "top", .halt]

def atLine (n : Nat) : System :=
  { host := { vars := [("v", .response .b (okFields [.byte 0x08#8]))], line := n, waiting := none }, block := State.reset }

theorem witness_HostLinesLeaveTheBlock :
    (∀ n ∈ [0, 2, 7, 8, 9], (atLine n).host.waiting = none) ∧ script[0]? = some (.label "top") ∧
      script[2]? = some (.branch { var := "v", fields := ["status"] } true (.status .ok) "top") ∧
      evalCond (atLine 2).host { var := "v", fields := ["status"] } true (.status .ok) = .ok true ∧ Line.label "top" ∈ script ∧
      script[7]? = some (.branch { var := "v", fields := ["status"] } false (.status .ok) "top") ∧
      evalCond (atLine 7).host { var := "v", fields := ["status"] } false (.status .ok) = .ok false ∧
      script[8]? = some .halt ∧ script[9]? = none ∧ scriptStep script (atLine 2) = .next (atLine 0) :=
  ⟨by decide, rfl, rfl, rfl, by decide, rfl, rfl, rfl, rfl, by decide⟩

theorem witness_ConditionsCompareFields :
    readPath (atLine 2).host { var := "v", fields := ["status"] } = .ok (.byte 0x00#8) ∧
      evalArg (atLine 2).host (.byte (.lit 0x08#8)) = .ok (.byte 0x08#8) ∧
      readPath (atLine 2).host { var := "v", fields := ["r"] } = .ok (.byte 0x08#8) ∧
      evalCond (atLine 2).host { var := "v", fields := ["status"] } true (.num 0) = .ok true ∧
      readPath { (atLine 2).host with vars := [("i", .value (.nat 3))] } { var := "i", fields := [] } = .ok (.nat 3) ∧
      readPath { (atLine 2).host with vars := [("p", .value (.pos (-1)))] } { var := "p", fields := [] } = .ok (.pos (-1)) ∧
      readPath { (atLine 2).host with vars := [("s", .value (.seq []))] } { var := "s", fields := [] } = .ok (.seq []) ∧
      (∀ b, Field.seq [] ≠ .byte b) ∧ (∀ m, Field.seq [] ≠ .nat m) ∧ (∀ p, Field.seq [] ≠ .pos p) :=
  ⟨rfl, rfl, rfl, rfl, rfl, rfl, rfl, fun _ => by simp, fun _ => by simp, fun _ => by simp⟩

/-- A variable of each kind, responses with each detail, and literals with a variable among their bytes. -/
def reader : HostState :=
  { (atLine 0).host with vars :=
      [("v", .response .b (okFields [.byte 0x08#8])), ("s", .value (.seq [0x09#8])), ("t", .value (.bits [1#8])),
       ("i", .value (.ident developmentField)), ("m", .value (.msg (manufacturerField developmentField []))),
       ("d", .response .msg (failed 0x02#8 (.offset 0))), ("e", .response .idn (failed 0x03#8 (.bytes [0x60#8])))] }

theorem witness_OperandsHaveTheirValues :
    evalArg reader (.byte (.lit 0x01#8)) = .ok (.byte 0x01#8) ∧
      evalArg reader (.byte (.ref { var := "v", fields := ["r"] })) = .ok (.byte 0x08#8) ∧
      (∀ (i : Nat) (a : ByteArg) (b : Byte), ([.lit 0x01#8] : List ByteArg)[i]? = some a → [0x01#8][i]? = some b →
        evalArg reader (.byte a) = .ok (.byte b)) ∧
      evalArg reader (.seq (.ref { var := "s", fields := [] })) = .ok (.seq [0x09#8]) ∧
      evalArg reader (.ident .development) = .ok (.ident developmentField) ∧
      readPath reader { var := "v", fields := ["r"] } = .ok (.byte 0x08#8) ∧
      readPath reader { var := "s", fields := [] } = .ok (.seq [0x09#8]) ∧
      readPath reader { var := "t", fields := [] } = .ok (.bits [1#8]) ∧
      readPath reader { var := "i", fields := [] } = .ok (.ident developmentField) ∧
      readPath reader { var := "m", fields := [] } = .ok (.msg (manufacturerField developmentField [])) ∧
      reader.vars.lookup "v" = some (.response .b (okFields [.byte 0x08#8])) ∧
      reader.vars.lookup "d" = some (.response .msg (failed 0x02#8 (.offset 0))) ∧
      reader.vars.lookup "e" = some (.response .idn (failed 0x03#8 (.bytes [0x60#8]))) ∧
      ResFormat.b.fields[0]? = some ("r", .byte) ∧ [Field.byte 0x08#8][0]? = some (.byte 0x08#8) := by
  refine ⟨rfl, rfl, ?_, rfl, rfl, rfl, rfl, rfl, rfl, rfl, rfl, rfl, rfl, rfl, rfl⟩
  intro i a b ha hb
  cases i with
  | zero => cases ha; cases hb; rfl
  | succ i => cases ha

theorem witness_RequestLineIssuesOneRequestAndBindsTheResponse :
    (atLine 1).host.waiting = none ∧
      script[(atLine 1).host.line]? = some (.request "v" .bitSet [.byte (.lit 0x00#8), .pos 3]) ∧
      evalArgs (atLine 1).host [.byte (.lit 0x00#8), .pos 3] = .ok [.byte 0x00#8, .pos 3] ∧
      [Arg.byte (.lit 0x00#8), .pos 3].map argKind = Op.bitSet.format.fields.map Prod.snd ∧
      ({ State.reset with responses := [okFields [.byte 0x08#8]] } : State).responses = okFields [.byte 0x08#8] :: [] ∧
      "w" ≠ "v" := ⟨by decide, by decide, rfl, rfl, rfl, by decide⟩

theorem witness_PseudoInstructionsExpandToOneRequest :
    (∀ n ∈ [3, 4, 5, 6], (atLine n).host.waiting = none) ∧
      script[3]? = some (.pseudo "n" .lowNybble [.byte (.lit 0xA5#8)]) ∧
      evalArgs (atLine 3).host [.byte (.lit 0xA5#8)] = .ok [.byte 0xA5#8] ∧
      (okFields [.byte 0x0A#8, .byte 0x05#8]).results = some [.byte 0x0A#8, .byte 0x05#8] ∧
      (okFields [.byte 1#8]).results = some [.byte 1#8] := ⟨by decide, by decide, rfl, rfl, rfl⟩

theorem witness_HostWaitsForTheResponse :
    ({ (atLine 2).host with waiting := some { bind := "v", fmt := .b, field := none } } : HostState).waiting.isSome = true ∧
      State.reset.responses = [] ∧ step State.reset = .next State.reset := ⟨rfl, rfl, rfl⟩

end Sys2Proof.Tests
end

section
/-! SUPPORT. The groups of `chunk` (Machine/Operands.lean, R10), by induction along its own turns, and O26. -/

namespace Sys2Proof.Machine

/-- Induction along the turns of `chunk`: from what is left after the first `n` elements to the whole sequence. -/
theorem chunk_induction {n : Nat} (hn : 0 < n) {motive : ByteSeq → Prop} (nil : motive [])
    (turn : ∀ s, s ≠ [] → motive (s.drop n) → motive s) (s : ByteSeq) : motive s := by
  by_cases hs : s = []
  · exact hs ▸ nil
  · have : (s.drop n).length < s.length := by
      have := List.length_pos_iff.mpr hs
      simp only [List.length_drop]
      omega
    exact turn s hs (chunk_induction hn nil turn (s.drop n))
termination_by s.length

theorem chunk_ne_nil {n : Nat} (hn : 0 < n) {s : ByteSeq} (hs : s ≠ []) : chunk s n ≠ [] := by
  simp [chunk_step hn hs]

theorem chunk_flatten {n : Nat} (hn : 0 < n) (s : ByteSeq) : (chunk s n).flatten = s := by
  induction s using chunk_induction hn with
  | nil => rfl
  | turn s hs ih => rw [chunk_step hn hs, List.flatten_cons, ih, List.take_append_drop]

theorem chunk_length_bounds {n : Nat} (hn : 0 < n) (s : ByteSeq) :
    ∀ g ∈ chunk s n, 1 ≤ g.length ∧ g.length ≤ n := by
  induction s using chunk_induction hn with
  | nil => simp
  | turn s hs ih =>
    have first : 1 ≤ (s.take n).length ∧ (s.take n).length ≤ n := by
      have := List.length_pos_iff.mpr hs
      simp only [List.length_take]
      omega
    rw [chunk_step hn hs]
    exact List.forall_mem_cons.mpr ⟨first, ih⟩

/-- A group with another one after it is full: elements are left only past the first `n`. -/
theorem chunk_dropLast_length {n : Nat} (hn : 0 < n) (s : ByteSeq) :
    ∀ g ∈ (chunk s n).dropLast, g.length = n := by
  induction s using chunk_induction hn with
  | nil => simp
  | turn s hs ih =>
    rw [chunk_step hn hs]
    by_cases hrest : s.drop n = []
    · simp [hrest]
    · have full : (s.take n).length = n := by
        have : n < s.length := by simpa using hrest
        simpa using this.le
      rw [List.dropLast_cons_of_ne_nil (chunk_ne_nil hn hrest)]
      exact List.forall_mem_cons.mpr ⟨full, ih⟩

/-- Settles O26: each clause by induction along the turns of `chunk`. -/
theorem chunkSplitsIntoConsecutiveGroups : Obligations.ChunkSplitsIntoConsecutiveGroups :=
  fun xs n hn => ⟨chunk_flatten hn xs, chunk_dropLast_length hn xs, chunk_length_bounds hn xs, chunk_nil n⟩

end Sys2Proof.Machine
end

section
/-! SUPPORT. Serving a request as the statements name it (`Serves`), and O8. -/

namespace Sys2Proof.Machine

/-- R33, R53: where `serve` delivers a response and does nothing else, the step that serves the request does the same. -/
theorem serves_of_serve {q : Request} {s : State} {r : Response} (h : serve q s = .next (deliver r s)) : Serves q s r := by
  intro hreset hcurrent
  calc step s = serve q s := step_of_current hreset hcurrent
    _ = .next (deliver r s) := h

/-- Settles O8: of each request `serve_delivers` gives a function of the parameters; together they are the one function. -/
theorem responseDependsOnTheRequestAlone : Obligations.ResponseDependsOnTheRequestAlone := by
  choose f hf using serve_delivers
  exact ⟨fun P q => f q P, fun s q => serves_of_serve (hf q s)⟩

end Sys2Proof.Machine
end

section
/-! SUPPORT. What `Answers` says (R61, R203, R204), in the words of the statements. -/

namespace Sys2Proof.Machine

theorem posFits_iff_posOk (s : State) (p : Int) : posFits s.params p = true ↔ PosOk s p := posFits_iff s.params p

theorem lenFits_iff_lenOk (s : State) (n : Nat) : lenFits s.params n = true ↔ LenOk s n := lenFits_iff s.params n

theorem okResponse_eq_okFields (r : Result) : okResponse r = okFields (resultFields r) := rfl

theorem okFields_inj {fs gs : List Field} : okFields fs = okFields gs ↔ fs = gs := by simp [okFields]

theorem errResponse_ne_okFields (e : Err) (fs : List Field) : errResponse e ≠ okFields fs :=
  fun h => Option.some_ne_none fs (congrArg Response.results h).symm

/-- An instruction answers the one response that `respond` gives. -/
theorem answers_iff_respond {i : Instr} {s : State} {r : Response} :
    Answers i s r ↔ respond s.params (operandsLegal s.params i) (operandSeqLengths i) (operation s.params i) = r := by
  rw [← next_deliver_inj _ r s, ← exec_eq_respond]
  rfl

/-- An instruction answers OK exactly where its operands are in their domains and within `MAX_SEQ_LEN`, and its operation has a
result that is within `MAX_SEQ_LEN`; the fields are that result's. -/
theorem answers_okFields_iff {i : Instr} {s : State} {fs : List Field} :
    Answers i s (okFields fs) ↔
      operandsLegal s.params i = true ∧ (operandSeqLengths i).all (lenFits s.params) = true ∧
        ∃ r, operation s.params i = .ok r ∧ (resultLens r).all (lenFits s.params) = true ∧ fs = resultFields r := by
  rw [answers_iff_respond]
  constructor
  · intro h
    have noError (e : Err) (he : respond _ _ _ _ = errResponse e) : False := errResponse_ne_okFields e fs (he.symm.trans h)
    obtain ⟨_, hr⟩ | ⟨_, _, hr⟩ | ⟨e, _, _, _, hr⟩ | ⟨r, _, _, _, _, hr⟩ | ⟨r, hlegal, hlens, hop, hfits, hr⟩ :=
      respond_cases s.params (operandsLegal s.params i) (operandSeqLengths i) (operation s.params i)
    · exact (noError _ hr).elim
    · exact (noError _ hr).elim
    · exact (noError _ hr).elim
    · exact (noError _ hr).elim
    · exact ⟨hlegal, hlens, r, hop, hfits, okFields_inj.mp (h.symm.trans hr)⟩
  · rintro ⟨hlegal, hlens, r, hop, hfits, rfl⟩
    rw [hlegal, hop, respond_ok r hlens hfits, okResponse_eq_okFields]

/-- R203: an operand outside its domain is answered IllegalOperand. -/
theorem answers_illegalOperand {i : Instr} {s : State} (h : operandsLegal s.params i = false) :
    Answers i s (failed 0x81#8 .none) := by
  rw [answers_iff_respond, h, respond_illegal]
  rfl

/-- Where no sequence goes in or comes out and no error is raised, the domains of the operands alone decide. -/
theorem answers_okFields_iff_of_scalar {i : Instr} {s : State} {fs : List Field} {r : Result}
    (hop : operation s.params i = .ok r) (hin : operandSeqLengths i = []) (hout : resultLens r = []) :
    Answers i s (okFields fs) ↔ operandsLegal s.params i = true ∧ fs = resultFields r := by
  simp [answers_okFields_iff, hop, hin, hout]

end Sys2Proof.Machine
end

section
/-! SUPPORT. The results of the bit and nybble operations (Machine/BitNybble.lean, R100 to R108), and how they undo each other
(R109). -/

namespace Sys2Proof.Machine

/-! ## One position (R100 to R102) -/

theorem bitGet_eq_true_iff (b : Byte) (p : Int) :
    bitGet b p = true ↔ (0 ≤ p ∧ p ≤ 7) ∧ b.toNat / 2 ^ p.toNat % 2 = 1 := by
  simp [bitGet, inByte_iff, BitVec.getLsbD, Nat.testBit_eq_decide_div_mod_eq]

theorem bitGet_natCast (b : Byte) {k : Nat} (hk : k < 8) : bitGet b k = b.getLsbD k := by
  have : inByte k = true := (inByte_iff _).mpr (by omega)
  simp [bitGet, this]

/-- A position outside a Byte is ignored: each of the three leaves the operand, or reads false. -/
theorem bit_operations_outside {p : Int} (hp : p < 0 ∨ 7 < p) (b : Byte) :
    bitSet b p = b ∧ bitClear b p = b ∧ bitGet b p = false := by
  have : ¬ inByte p = true := by rw [inByte_iff]; omega
  simp [bitSet, bitClear, bitGet, this]

theorem bitGet_bitSet (b : Byte) {p : Int} (h0 : 0 ≤ p) (h7 : p ≤ 7) : bitGet (bitSet b p) p = true := by
  lift p to Nat using h0
  have hp : p < 8 := by omega
  simp [bitGet_natCast _ hp, bitSet_getLsbD b p p hp]

theorem bitGet_bitClear (b : Byte) {p : Int} (h0 : 0 ≤ p) (h7 : p ≤ 7) : bitGet (bitClear b p) p = false := by
  lift p to Nat using h0
  have hp : p < 8 := by omega
  simp [bitGet_natCast _ hp, bitClear_getLsbD b p p hp]

/-! ## Nybbles (R103, R104) -/

theorem highNybble_toNat (b : Byte) : (highNybble b).toNat = b.toNat / 16 := by revert b; decide

theorem lowNybble_toNat (b : Byte) : (lowNybble b).toNat = b.toNat % 16 := by
  simpa [lowNybble] using Nat.and_two_pow_sub_one_eq_mod b.toNat 4

theorem nybbleJoin_getLsbD (high low : Byte) {k : Nat} (hk : k < 8) :
    (nybbleJoin high low).getLsbD k = (low.getLsbD k || (decide (4 ≤ k) && high.getLsbD (k - 4))) := by
  have : (!decide (k < 4)) = decide (4 ≤ k) := by simp [← decide_not]
  rw [nybbleJoin, BitVec.getLsbD_or, BitVec.getLsbD_shiftLeft, Bool.or_comm, this]
  simp [hk]

/-- R104 for masked operands: the shifted and the low nybble have no bit in common, so that ORing them adds them. -/
theorem nybbleJoin_toNat {high low : Byte} (hhigh : high.toNat ≤ 15) (hlow : low.toNat ≤ 15) :
    (nybbleJoin high low).toNat = 16 * high.toNat + low.toNat := by
  have hshift : (high <<< 4).toNat = high.toNat <<< 4 := by
    rw [BitVec.toNat_shiftLeft, Nat.shiftLeft_eq, Nat.mod_eq_of_lt (by omega)]
  calc (nybbleJoin high low).toNat = high.toNat <<< 4 ||| low.toNat := by rw [nybbleJoin, BitVec.toNat_or, hshift]
    _ = high.toNat <<< 4 + low.toNat := (Nat.shiftLeft_add_eq_or_of_lt (by omega) _).symm
    _ = 16 * high.toNat + low.toNat := by rw [Nat.shiftLeft_eq]; omega

theorem nybbleJoin_split (b : Byte) : nybbleJoin (highNybble b) (lowNybble b) = b := by
  apply BitVec.eq_of_toNat_eq
  rw [nybbleJoin_toNat (by rw [highNybble_toNat]; omega) (by rw [lowNybble_toNat]; omega),
    highNybble_toNat, lowNybble_toNat]
  omega

/-! ## Ranges (R105) -/

theorem bitRangeReplace_invalid (ov : ReplaceOverflow) (b : Byte) {lo hi : Int} (v : Byte)
    (h : ¬ (0 ≤ lo ∧ lo ≤ hi ∧ hi ≤ 7)) : bitRangeReplace ov b lo hi v = b := if_neg h

theorem bitRangeReplace_getLsbD (ov : ReplaceOverflow) (b : Byte) {lo hi : Int} (v : Byte)
    (h : 0 ≤ lo ∧ lo ≤ hi ∧ hi ≤ 7) {k : Nat} (hk : k < 8) :
    (bitRangeReplace ov b lo hi v).getLsbD k =
      if lo ≤ k ∧ (k : Int) ≤ hi then v.getLsbD (k - lo.toNat) else b.getLsbD k := by
  have hmask : (rangeMask lo.toNat (hi - lo + 1).toNat).getLsbD k = decide (lo ≤ k ∧ (k : Int) ≤ hi) := by
    have := rangeMask_getLsbD ⟨lo.toNat, by omega⟩ ⟨(hi - lo + 1).toNat, by omega⟩ ⟨k, hk⟩ (by simp only; omega)
    rw [this, ← Bool.decide_and, decide_eq_decide]
    simp only
    omega
  cases ov with
  | truncate =>
    rw [bitRangeReplace, if_pos h]
    simp only [BitVec.getLsbD_or, BitVec.getLsbD_and, BitVec.getLsbD_not, BitVec.getLsbD_shiftLeft, hmask, hk]
    split
    · next hin =>
      have : ¬ k < lo.toNat := by omega
      simp [hin, this]
    · next hout => simp [hout]

/-- R109 (e): a valid range and an invalid one leave every position outside of it. -/
theorem bitRangeReplace_outside (ov : ReplaceOverflow) (b : Byte) {lo hi : Int} (v : Byte) {k : Nat} (hk : k < 8)
    (hout : ¬ (lo ≤ (k : Int) ∧ (k : Int) ≤ hi)) : (bitRangeReplace ov b lo hi v).getLsbD k = b.getLsbD k := by
  by_cases h : 0 ≤ lo ∧ lo ≤ hi ∧ hi ≤ 7
  · rw [bitRangeReplace_getLsbD ov b v h hk, if_neg hout]
  · rw [bitRangeReplace_invalid ov b v h]

/-! ## Bytes and their bits (R107, R108) -/

@[simp] theorem bitsOfByte_length (b : Byte) : (bitsOfByte b).length = 8 := by simp [bitsOfByte]

theorem bitsOfByte_getElem? (b : Byte) {k : Nat} (hk : k < 8) : (bitsOfByte b)[k]? = some (b.getLsbD k) := by
  simp [bitsOfByte, hk]

/-- R109 (a): bit `k` of the one is element `k` of the other, which is bit `k`. -/
theorem byteOfBits_bitsOfByte (b : Byte) : byteOfBits (bitsOfByte b) = b := by
  apply BitVec.eq_of_getLsbD_eq
  intro k hk
  rw [byteOfBits_getLsbD _ k hk, List.getD_eq_getElem?_getD, bitsOfByte_getElem? b hk, Option.getD_some]

/-- R109 (f): element `k` of the one is bit `k` of the other, which is element `k`, and 0 past the end. -/
theorem bitsOfByte_byteOfBits {bs : BitSeq} (h : bs.length ≤ 8) :
    bitsOfByte (byteOfBits bs) = bs ++ List.replicate (8 - bs.length) false := by
  apply List.ext_getElem?
  intro k
  by_cases hk : k < 8
  · rw [bitsOfByte_getElem? _ hk, byteOfBits_getLsbD bs k hk, List.getD_eq_getElem?_getD]
    by_cases hin : k < bs.length
    · rw [List.getElem?_append_left hin, List.getElem?_eq_getElem hin, Option.getD_some]
    · have hpad : k - bs.length < 8 - bs.length := by omega
      simp [List.getElem?_append_right (Nat.le_of_not_lt hin), hin, hpad]
  · rw [List.getElem?_eq_none (by simp; omega), List.getElem?_eq_none (by simp; omega)]

/-- R65: the field of a BitSeq is any list of zeros and ones. -/
theorem bitsOfField_isSome_iff (xs : List Byte) : (bitsOfField xs).isSome = true ↔ ∀ x ∈ xs, x = 0#8 ∨ x = 1#8 := by
  simp [bitsOfField_isSome, wfBits, tag_le_one]

theorem bitField_eq_one_iff (b : Bit) : bitField b = 1#8 ↔ b = true := by revert b; decide

theorem byteOfBits_getLsbD_eq_decide (bs : BitSeq) {k : Nat} (hk : k < 8) :
    (byteOfBits bs).getLsbD k = decide ((bs.map bitField)[k]? = some 1#8) := by
  rw [byteOfBits_getLsbD bs k hk, List.getD_eq_getElem?_getD, List.getElem?_map]
  cases bs[k]? with
  | none => rfl
  | some b => simp [bitField_eq_one_iff]

end Sys2Proof.Machine
end

section
/-! SUPPORT. When each bit and nybble operation answers OK, and the statements about them (R100 to R109): O17 to O25. -/

namespace Sys2Proof.Machine

/-! ## When each operation answers OK, and with which value -/

theorem answers_bitGet_iff {b : Byte} {p : Int} {s : State} {r : Byte} :
    Answers (.bitGet b p) s (okFields [.byte r]) ↔ PosOk s p ∧ r = bitField (bitGet b p) := by
  rw [answers_okFields_iff_of_scalar rfl rfl rfl]
  simp [operandsLegal, posFits_iff_posOk, resultFields]

theorem answers_bitSet_iff {b : Byte} {p : Int} {s : State} {r : Byte} :
    Answers (.bitSet b p) s (okFields [.byte r]) ↔ PosOk s p ∧ r = bitSet b p := by
  rw [answers_okFields_iff_of_scalar rfl rfl rfl]
  simp [operandsLegal, posFits_iff_posOk, resultFields]

theorem answers_bitClear_iff {b : Byte} {p : Int} {s : State} {r : Byte} :
    Answers (.bitClear b p) s (okFields [.byte r]) ↔ PosOk s p ∧ r = bitClear b p := by
  rw [answers_okFields_iff_of_scalar rfl rfl rfl]
  simp [operandsLegal, posFits_iff_posOk, resultFields]

theorem answers_nybbleSplit_iff {b : Byte} {s : State} {high low : Byte} :
    Answers (.nybbleSplit b) s (okFields [.byte high, .byte low]) ↔ high = highNybble b ∧ low = lowNybble b := by
  rw [answers_okFields_iff_of_scalar rfl rfl rfl]
  simp [operandsLegal, resultFields]

theorem answers_nybbleJoin_iff {high low : Byte} {s : State} {r : Byte} :
    Answers (.nybbleJoin high low) s (okFields [.byte r]) ↔ r = nybbleJoin high low := by
  rw [answers_okFields_iff_of_scalar rfl rfl rfl]
  simp [operandsLegal, resultFields]

theorem answers_bitRangeReplace_iff {b : Byte} {lo hi : Int} {v : Byte} {s : State} {r : Byte} :
    Answers (.bitRangeReplace b lo hi v) s (okFields [.byte r]) ↔
      (PosOk s lo ∧ PosOk s hi) ∧ r = bitRangeReplace s.params.replaceOverflow b lo hi v := by
  rw [answers_okFields_iff_of_scalar rfl rfl rfl]
  simp [operandsLegal, posFits_iff_posOk, resultFields]

theorem answers_bitsOfByte_iff {b : Byte} {s : State} {xs : List Byte} :
    Answers (.bitsOfByte b) s (okFields [.bits xs]) ↔ LenOk s 8 ∧ xs = (bitsOfByte b).map bitField := by
  simp [answers_okFields_iff, operandsLegal, operandSeqLengths, operation, resultLens, lenFits_iff_lenOk, resultFields]

/-- R65, R108: the operand is the field of a BitSeq, and the answer is that BitSeq's byte. -/
theorem answers_byteOfBits_iff {xs : List Byte} {s : State} {r : Byte} :
    Answers (.byteOfBits xs) s (okFields [.byte r]) ↔
      LenOk s xs.length ∧ ∃ bs : BitSeq, xs = bs.map bitField ∧ r = byteOfBits bs := by
  rw [answers_okFields_iff]
  constructor
  · rintro ⟨hlegal, hlens, result, hop, -, hfields⟩
    obtain ⟨bs, hbs⟩ := Option.isSome_iff_exists.mp hlegal
    obtain rfl : .byte (byteOfBits bs) = result := by simpa [operation, hbs] using hop
    exact ⟨by simpa [operandSeqLengths, lenFits_iff_lenOk] using hlens, bs, bitsOfField_eq_some hbs,
      by simpa [resultFields] using hfields⟩
  · rintro ⟨hlen, bs, rfl, rfl⟩
    rw [← lenFits_iff_lenOk] at hlen
    exact ⟨by simp [operandsLegal], by simpa [operandSeqLengths] using hlen, .byte (byteOfBits bs),
      by simp [operation], rfl, rfl⟩

/-! ## The statements -/

/-- Settles O22: bit by bit for a valid range, by the guard for an invalid one. -/
theorem bitRangeReplaceWritesTheRange : Obligations.BitRangeReplaceWritesTheRange :=
  fun b _ _ v _ => ⟨rfl, fun hlo hhi => ⟨_, answers_bitRangeReplace_iff.mpr ⟨⟨hlo, hhi⟩, rfl⟩,
    fun h _ hk => bitRangeReplace_getLsbD _ b v h hk, bitRangeReplace_invalid _ b v⟩⟩

/-- Settles O24: zeros and ones are the field of a BitSeq, and any other list is of none. -/
theorem byteOfBitsCollectsTheBits : Obligations.ByteOfBitsCollectsTheBits := by
  refine fun xs s => ⟨rfl, fun hbits hlen => ?_, fun ⟨x, hx, h0, h1⟩ => answers_illegalOperand ?_⟩
  · obtain ⟨bs, hbs⟩ := Option.isSome_iff_exists.mp ((bitsOfField_isSome_iff xs).mpr hbits)
    obtain rfl := bitsOfField_eq_some hbs
    exact ⟨byteOfBits bs, answers_byteOfBits_iff.mpr ⟨hlen, bs, rfl, rfl⟩,
      fun k hk => byteOfBits_getLsbD_eq_decide bs hk⟩
  · have : ¬ (bitsOfField xs).isSome = true := fun h => ((bitsOfField_isSome_iff xs).mp h x hx).elim h0 h1
    simpa [operandsLegal] using this

/-- Settles O25: each answer is turned into its operation's result, and the law is the result's. -/
theorem bitAndNybbleLaws : Obligations.BitAndNybbleLaws := by
  refine ⟨?bits_then_byte, ?split_then_join, ?set_then_get, ?clear_then_get, ?outside, ?range, ?byte_then_bits⟩
  case bits_then_byte =>
    intro b s xs h t ht
    obtain ⟨-, rfl⟩ := answers_bitsOfByte_iff.mp h
    exact answers_byteOfBits_iff.mpr ⟨by simpa using ht, bitsOfByte b, rfl, (byteOfBits_bitsOfByte b).symm⟩
  case split_then_join =>
    intro b s high low h t
    obtain ⟨rfl, rfl⟩ := answers_nybbleSplit_iff.mp h
    exact answers_nybbleJoin_iff.mpr (nybbleJoin_split b).symm
  case set_then_get =>
    intro b p s r h0 h7 h
    obtain ⟨-, rfl⟩ := answers_bitSet_iff.mp h
    exact ⟨fun t ht => answers_bitGet_iff.mpr ⟨ht, by rw [bitGet_bitSet b h0 h7]; rfl⟩,
      fun k hk hkp => by simp [bitSet_getLsbD b p k hk, hkp]⟩
  case clear_then_get =>
    intro b p s r h0 h7 h
    obtain ⟨-, rfl⟩ := answers_bitClear_iff.mp h
    exact ⟨fun t ht => answers_bitGet_iff.mpr ⟨ht, by rw [bitGet_bitClear b h0 h7]; rfl⟩,
      fun k hk hkp => by simp [bitClear_getLsbD b p k hk, hkp]⟩
  case outside =>
    intro b p s hp hfits
    obtain ⟨hset, hclear, hget⟩ := bit_operations_outside hp b
    exact ⟨answers_bitSet_iff.mpr ⟨hfits, hset.symm⟩, answers_bitClear_iff.mpr ⟨hfits, hclear.symm⟩,
      answers_bitGet_iff.mpr ⟨hfits, by rw [hget]; rfl⟩⟩
  case range =>
    intro b lo hi v s r h k hk hout
    obtain ⟨-, rfl⟩ := answers_bitRangeReplace_iff.mp h
    exact bitRangeReplace_outside _ b v hk hout
  case byte_then_bits =>
    intro xs s b hlen h t ht
    obtain ⟨-, bs, rfl, rfl⟩ := answers_byteOfBits_iff.mp h
    rw [List.length_map] at hlen
    exact answers_bitsOfByte_iff.mpr ⟨ht, by simp [bitsOfByte_byteOfBits hlen, bitField]⟩

/-- Settles O17: the byte answered is 1 exactly where `bitGet` reads true. -/
theorem bitGetReadsTheBit : Obligations.BitGetReadsTheBit :=
  fun b p _ => ⟨rfl, fun hp => answers_bitGet_iff.mpr ⟨hp, by simp [bitField, bitGet_eq_true_iff]⟩⟩

/-- Settles O18: the bits of the answer are those of `bitSet_getLsbD`. -/
theorem bitSetSetsTheBit : Obligations.BitSetSetsTheBit :=
  fun b p _ => ⟨rfl, fun hp => ⟨_, answers_bitSet_iff.mpr ⟨hp, rfl⟩, bitSet_getLsbD b p⟩⟩

/-- Settles O19: the bits of the answer are those of `bitClear_getLsbD`. -/
theorem bitClearClearsTheBit : Obligations.BitClearClearsTheBit :=
  fun b p _ => ⟨rfl, fun hp => ⟨_, answers_bitClear_iff.mpr ⟨hp, rfl⟩, bitClear_getLsbD b p⟩⟩

/-- Settles O20: shift and mask are quotient and remainder. -/
theorem nybbleSplitGivesTheTwoNybbles : Obligations.NybbleSplitGivesTheTwoNybbles :=
  fun b _ => ⟨rfl, _, _, answers_nybbleSplit_iff.mpr ⟨rfl, rfl⟩, highNybble_toNat b, lowNybble_toNat b⟩

/-- Settles O21: bit by bit for every operand, as a sum for masked ones. -/
theorem nybbleJoinJoinsTheNybbles : Obligations.NybbleJoinJoinsTheNybbles :=
  fun high low _ => ⟨rfl, _, answers_nybbleJoin_iff.mpr rfl, fun _ hk => nybbleJoin_getLsbD high low hk, nybbleJoin_toNat⟩

/-- Settles O23: each element as it travels. -/
theorem bitsOfByteListsTheBits : Obligations.BitsOfByteListsTheBits :=
  fun b _ => ⟨rfl, fun hlen => ⟨_, answers_bitsOfByte_iff.mpr ⟨hlen, rfl⟩, by simp,
    fun k hk => by simp [bitsOfByte_getElem? b hk, bitField]⟩⟩

end Sys2Proof.Machine
end

section
/-! SUPPORT. What stands at each position of a packed and of an unpacked sequence (Machine/Pack7.lean, R140, R141), and how the
two undo each other (R142, R143). -/

namespace Sys2Proof.Machine

/-! ## The first group of a result, and the rest -/

/-- A first part of length `m`, or a shorter one with nothing after it, is cut off at `m`. -/
theorem take_drop_append_of_full {a b : ByteSeq} {m : Nat} (h : a.length = m ∨ (a.length ≤ m ∧ b = [])) :
    (a ++ b).take m = a ∧ (a ++ b).drop m = b := by
  rcases h with h | ⟨h, rfl⟩
  · exact ⟨List.take_left' h, List.drop_left' h⟩
  · simp [h]

/-- R10: the first `n` elements are a full group, or they are all. -/
theorem take_full_or_drop_nil (s : ByteSeq) (n : Nat) : (s.take n).length = n ∨ s.drop n = [] := by
  simp only [List.length_take, List.drop_eq_nil_iff]
  omega

theorem pack7bit_take_drop {s : ByteSeq} (hs : s ≠ []) :
    (pack7bit s).take 8 = packGroup (s.take 7) ∧ (pack7bit s).drop 8 = pack7bit (s.drop 7) := by
  rw [pack7bit_step hs]
  apply take_drop_append_of_full
  rcases take_full_or_drop_nil s 7 with full | last
  · exact .inl (by rw [packGroup_length, full])
  · exact .inr ⟨by simp, by rw [last, pack7bit_nil]⟩

theorem unpack7bit_take_drop (hb : UnpackHighBit) {w : ByteSeq} (hw : w ≠ []) :
    (unpack7bit hb w).take 7 = unpackGroup hb (w.take 8) ∧ (unpack7bit hb w).drop 7 = unpack7bit hb (w.drop 8) := by
  rw [unpack7bit_step hb hw]
  apply take_drop_append_of_full
  rcases take_full_or_drop_nil w 8 with full | last
  · exact .inl (by rw [unpackGroup_length, full])
  · exact .inr ⟨by simp, by rw [last, unpack7bit_nil]⟩

/-! ## Lengths -/

/-- R140: each group of up to 7 bytes takes one more. -/
theorem pack7bit_length (s : ByteSeq) : (pack7bit s).length = s.length + (s.length + 6) / 7 := by
  induction s using chunk_induction (n := 7) (by decide) with
  | nil => rfl
  | turn s hs ih =>
    have := List.length_pos_iff.mpr hs
    rw [pack7bit_step hs, List.length_append, ih, packGroup_length, List.length_take, List.length_drop]
    omega

/-- R141: each group of up to 8 bytes gives one less. -/
theorem unpack7bit_length (hb : UnpackHighBit) (w : ByteSeq) :
    (unpack7bit hb w).length = w.length - (w.length + 7) / 8 := by
  induction w using chunk_induction (n := 8) (by decide) with
  | nil => rfl
  | turn w hw ih =>
    have := List.length_pos_iff.mpr hw
    rw [unpack7bit_step hb hw, List.length_append, ih, unpackGroup_length, List.length_take, List.length_drop]
    omega

/-! ## Group `g` of a result -/

/-- R140: from position `8 g` on stands what the bytes from `7 g` on pack to. -/
theorem pack7bit_drop_groups (s : ByteSeq) (g : Nat) : (pack7bit s).drop (8 * g) = pack7bit (s.drop (7 * g)) := by
  induction g generalizing s with
  | zero => rfl
  | succ g ih =>
    by_cases hs : s = []
    · simp [hs]
    · obtain ⟨-, hdrop⟩ := pack7bit_take_drop hs
      rw [Nat.mul_succ, Nat.mul_succ, Nat.add_comm, Nat.add_comm (7 * g), ← List.drop_drop, ← List.drop_drop, hdrop, ih]

/-- R141: from position `7 g` on stands what the bytes from `8 g` on unpack to. -/
theorem unpack7bit_drop_groups (hb : UnpackHighBit) (w : ByteSeq) (g : Nat) :
    (unpack7bit hb w).drop (7 * g) = unpack7bit hb (w.drop (8 * g)) := by
  induction g generalizing w with
  | zero => rfl
  | succ g ih =>
    by_cases hw : w = []
    · simp [hw]
    · obtain ⟨-, hdrop⟩ := unpack7bit_take_drop hb hw
      rw [Nat.mul_succ, Nat.mul_succ, Nat.add_comm, Nat.add_comm (8 * g), ← List.drop_drop, ← List.drop_drop, hdrop, ih]

/-- R140: position `k` of the packed group `g`. -/
theorem pack7bit_getElem?_group {s : ByteSeq} {g k : Nat} (hg : 7 * g < s.length) (hk : k < 8) :
    (pack7bit s)[8 * g + k]? = (packGroup ((s.drop (7 * g)).take 7))[k]? := by
  have hne : s.drop (7 * g) ≠ [] := by simpa using hg
  obtain ⟨htake, -⟩ := pack7bit_take_drop hne
  rw [← htake, List.getElem?_take_of_lt hk, ← pack7bit_drop_groups, List.getElem?_drop]

/-- R141: position `k` of the unpacked group `g`. -/
theorem unpack7bit_getElem?_group (hb : UnpackHighBit) {w : ByteSeq} {g k : Nat} (hg : 8 * g < w.length) (hk : k < 7) :
    (unpack7bit hb w)[7 * g + k]? = (unpackGroup hb ((w.drop (8 * g)).take 8))[k]? := by
  have hne : w.drop (8 * g) ≠ [] := by simpa using hg
  obtain ⟨htake, -⟩ := unpack7bit_take_drop hb hne
  rw [← htake, List.getElem?_take_of_lt hk, ← unpack7bit_drop_groups, List.getElem?_drop]

/-! ## Each byte of a result -/

/-- R140: byte `7 g + k` stands, masked, at position `k` after the index byte of group `g`. -/
theorem pack7bit_data {s : ByteSeq} {g k : Nat} (hk : k < 7) (h : 7 * g + k < s.length) :
    (pack7bit s)[8 * g + 1 + k]? = some (elem s (7 * g + k) &&& 0x7F#8) := by
  rw [Nat.add_assoc, Nat.add_comm 1, pack7bit_getElem?_group (by omega) (by omega)]
  simp [packGroup, elem, List.getElem?_take_of_lt hk, h]

/-- R140: the index byte of group `g` stands before the group. -/
theorem pack7bit_index {s : ByteSeq} {g : Nat} (hg : 7 * g < s.length) :
    (pack7bit s)[8 * g]? = some (indexByte ((s.drop (7 * g)).take 7)) :=
  pack7bit_getElem?_group (k := 0) hg (by decide)

/-- R140: bit `j` of that index byte is bit 7 of the group's `j`-th byte, and 0 where it has none. -/
theorem indexByte_group_getLsbD {s : ByteSeq} {g j : Nat} (hj : j < 8) :
    (indexByte ((s.drop (7 * g)).take 7)).getLsbD j = true ↔
      j < 7 ∧ 7 * g + j < s.length ∧ (elem s (7 * g + j)).getLsbD 7 = true := by
  rw [indexByte_getLsbD _ (by simp) j hj, Bool.and_eq_true, decide_eq_true_iff, List.length_take, List.length_drop]
  have inside : j < min 7 (s.length - 7 * g) ↔ j < 7 ∧ 7 * g + j < s.length := by omega
  rw [inside, and_assoc]
  refine and_congr_right fun hj7 => ?_
  simp [elem, List.getElem?_take_of_lt hj7]

/-- R141: byte `7 g + k` is the data byte at position `k` after the index byte of group `g`, with bit `k` of that index byte. -/
theorem unpack7bit_data (hb : UnpackHighBit) {w : ByteSeq} {g k : Nat} (hk : k < 7) (h : 8 * g + 1 + k < w.length) :
    (unpack7bit hb w)[7 * g + k]? =
      some (restoreHighBit hb ((elem w (8 * g)).getLsbD k) (elem w (8 * g + 1 + k))) := by
  have hg : 8 * g < w.length := by omega
  have hgroup : (w.drop (8 * g)).take 8 = elem w (8 * g) :: (w.drop (8 * g + 1)).take 7 := by
    rw [List.drop_eq_getElem_cons hg, List.take_succ_cons]
    simp [elem, hg]
  rw [unpack7bit_getElem?_group hb hg hk, hgroup, unpackGroup_getElem?]
  simp [elem, List.getElem?_take_of_lt hk, h]

/-- R141: under `assign`, bits 0..6 of the data byte, and bit 7 from the index byte alone. -/
theorem restoreHighBit_assign_getLsbD (bit : Bit) (d : Byte) :
    (∀ k < 7, (restoreHighBit .assign bit d).getLsbD k = d.getLsbD k) ∧
      (restoreHighBit .assign bit d).getLsbD 7 = bit := by
  revert bit d
  decide

/-- R142: a masked byte with its own bit 7 restored, under either value of `UNPACK_HIGH_BIT`. -/
theorem restoreHighBit_masked (hb : UnpackHighBit) (d : Byte) : restoreHighBit hb (d.getLsbD 7) (d &&& 0x7F#8) = d := by
  cases hb <;> revert d <;> decide

/-- R143: masking takes a restored bit 7 away again. -/
theorem restoreHighBit_assign_and_mask (bit : Bit) (d : Byte) : restoreHighBit .assign bit d &&& 0x7F#8 = d &&& 0x7F#8 := by
  revert bit d
  decide

theorem and_mask_toNat_le (d : Byte) : (d &&& 0x7F#8).toNat ≤ 0x7F := by
  revert d
  decide

theorem and_mask_of_toNat_le {d : Byte} (h : d.toNat ≤ 0x7F) : d &&& 0x7F#8 = d := by
  revert d
  decide

end Sys2Proof.Machine
end

section
/-! SUPPORT. Unpacking undoes packing, and packing undoes unpacking on what it can emit (R142, R143). -/

namespace Sys2Proof.Machine

theorem unpackGroup_packGroup (hb : UnpackHighBit) {g : ByteSeq} (hg : g.length ≤ 7) : unpackGroup hb (packGroup g) = g := by
  apply List.ext_getElem?
  intro j
  rw [packGroup, unpackGroup_getElem?, List.getElem?_map, Option.map_map]
  by_cases hj : j < g.length
  · have hbit : (indexByte g).getLsbD j = g[j].getLsbD 7 := by
      rw [indexByte_getLsbD g (by omega) j (by omega)]
      simp [elem, hj]
    rw [List.getElem?_eq_getElem hj, Option.map_some, Function.comp_apply, hbit, restoreHighBit_masked]
  · simp [hj]

/-- R142: group by group. -/
theorem unpack7bit_pack7bit (hb : UnpackHighBit) (s : ByteSeq) : unpack7bit hb (pack7bit s) = s := by
  induction s using chunk_induction (n := 7) (by decide) with
  | nil => rfl
  | turn s hs ih =>
    have hne : pack7bit s ≠ [] := by simp [pack7bit_step hs, packGroup]
    obtain ⟨htake, hdrop⟩ := pack7bit_take_drop hs
    rw [unpack7bit_step hb hne, htake, hdrop, ih, unpackGroup_packGroup hb (by simp), List.take_append_drop]

/-- R143: wire data that packing can emit. No group is an index byte alone, every data byte has bit 7 clear, and every index
byte has bit 7 and the bits past its group's last data byte clear. -/
def PackedData (w : ByteSeq) : Prop :=
  w.length % 8 ≠ 1 ∧
    (∀ i < w.length, i % 8 ≠ 0 → (elem w i).toNat ≤ 0x7F) ∧
    (∀ i < w.length, i % 8 = 0 → ∀ j < 8, (j = 7 ∨ w.length ≤ i + 1 + j) → (elem w i).getLsbD j = false)

theorem elem_eq_of_getElem? {s : ByteSeq} {i : Nat} {b : Byte} (h : s[i]? = some b) : elem s i = b := by
  rw [elem, List.getD_eq_getElem?_getD, h, Option.getD_some]

theorem packedData_pack7bit (s : ByteSeq) : PackedData (pack7bit s) := by
  have hlen := pack7bit_length s
  refine ⟨by omega, fun i hi hdata => ?_, fun i hi hindex j hj hunused => ?_⟩
  · obtain ⟨g, k, hk, rfl⟩ : ∃ g k, k < 7 ∧ i = 8 * g + 1 + k := ⟨i / 8, i % 8 - 1, by omega, by omega⟩
    rw [elem_eq_of_getElem? (pack7bit_data hk (by omega))]
    exact and_mask_toNat_le _
  · obtain ⟨g, rfl⟩ : ∃ g, i = 8 * g := ⟨i / 8, by omega⟩
    rw [elem_eq_of_getElem? (pack7bit_index (by omega)), ← Bool.not_eq_true, indexByte_group_getLsbD hj]
    omega

theorem eq_of_elem_eq {a b : ByteSeq} (hlen : a.length = b.length) (h : ∀ i < b.length, elem a i = elem b i) : a = b := by
  refine List.ext_getElem hlen fun i ha hb => ?_
  simpa [elem, ha, hb] using h i hb

/-- R143: each index byte comes back, bit by bit. -/
theorem indexByte_group_unpack7bit {w : ByteSeq} (h : PackedData w) {g : Nat} (hg : 8 * g < w.length) :
    indexByte (((unpack7bit .assign w).drop (7 * g)).take 7) = elem w (8 * g) := by
  obtain ⟨-, -, hindex⟩ := h
  have hlen := unpack7bit_length .assign w
  apply BitVec.eq_of_getLsbD_eq
  intro j hj
  rw [Bool.eq_iff_iff, indexByte_group_getLsbD hj]
  by_cases hunused : j = 7 ∨ w.length ≤ 8 * g + 1 + j
  · have hclear := hindex (8 * g) hg (by omega) j hj hunused
    simp only [hclear, Bool.false_eq_true, iff_false]
    omega
  · have hj7 : j < 7 := by omega
    have hbit : (elem (unpack7bit .assign w) (7 * g + j)).getLsbD 7 = (elem w (8 * g)).getLsbD j := by
      rw [elem_eq_of_getElem? (unpack7bit_data .assign hj7 (by omega))]
      exact (restoreHighBit_assign_getLsbD _ _).2
    rw [hbit]
    exact ⟨fun ⟨_, _, hset⟩ => hset, fun hset => ⟨hj7, by omega, hset⟩⟩

/-- R143: position by position, an index byte or a data byte. -/
theorem pack7bit_unpack7bit {w : ByteSeq} (h : PackedData w) : pack7bit (unpack7bit .assign w) = w := by
  have hlen := unpack7bit_length .assign w
  have ⟨hlone, hdata, _⟩ := h
  apply eq_of_elem_eq
  · rw [pack7bit_length]
    omega
  intro i hi
  by_cases hindex : i % 8 = 0
  · obtain ⟨g, rfl⟩ : ∃ g, i = 8 * g := ⟨i / 8, by omega⟩
    rw [elem_eq_of_getElem? (pack7bit_index (by omega)), indexByte_group_unpack7bit h hi]
  · have hmasked := and_mask_of_toNat_le (hdata i hi hindex)
    obtain ⟨g, k, hk, rfl⟩ : ∃ g k, k < 7 ∧ i = 8 * g + 1 + k := ⟨i / 8, i % 8 - 1, by omega, by omega⟩
    rw [elem_eq_of_getElem? (pack7bit_data hk (by omega)), elem_eq_of_getElem? (unpack7bit_data .assign hk hi),
      restoreHighBit_assign_and_mask, hmasked]

theorem pack7bit_unpack7bit_eq_iff (w : ByteSeq) : pack7bit (unpack7bit .assign w) = w ↔ PackedData w :=
  ⟨fun h => h ▸ packedData_pack7bit _, pack7bit_unpack7bit⟩

end Sys2Proof.Machine
end

section
/-! SUPPORT. When the packer and the unpacker answer OK, and the statements about them (R140 to R143): O27, O28, O30 and O31. -/

namespace Sys2Proof.Machine

/-! ## When each operation answers OK, and with which sequence -/

theorem lenOk_mono {s : State} {m n : Nat} (h : LenOk s n) (hmn : m ≤ n) : LenOk s m := by
  rw [← lenFits_iff_lenOk] at h ⊢
  exact lenFits_mono h hmn

/-- R204: where one sequence goes in and one comes out, and no error is raised, their lengths decide. -/
theorem answers_seq_iff {i : Instr} {s : State} {n : Nat} {r r' : ByteSeq} (hlegal : operandsLegal s.params i = true)
    (hin : operandSeqLengths i = [n]) (hop : operation s.params i = .ok (.seq r)) :
    Answers i s (okFields [.seq r']) ↔ LenOk s n ∧ LenOk s r.length ∧ r' = r := by
  simp [answers_okFields_iff, hlegal, hin, hop, resultLens, lenFits_iff_lenOk, resultFields]

/-- R204: the result is the longer of the two sequences, and the operand fits where it does. -/
theorem answers_pack7bit_iff {xs r : ByteSeq} {s : State} :
    Answers (.pack7bit xs) s (okFields [.seq r]) ↔ LenOk s r.length ∧ r = pack7bit xs := by
  have hle : xs.length ≤ (pack7bit xs).length := by rw [pack7bit_length]; omega
  rw [answers_seq_iff rfl rfl rfl]
  constructor
  · rintro ⟨-, hr, rfl⟩
    exact ⟨hr, rfl⟩
  · rintro ⟨hr, rfl⟩
    exact ⟨lenOk_mono hr hle, hr, rfl⟩

/-- R204: the operand is the longer of the two sequences, and the result fits where it does. -/
theorem answers_unpack7bit_iff {w r : ByteSeq} {s : State} :
    Answers (.unpack7bit w) s (okFields [.seq r]) ↔ LenOk s w.length ∧ r = unpack7bit s.params.unpackHighBit w := by
  have hle : (unpack7bit s.params.unpackHighBit w).length ≤ w.length := by rw [unpack7bit_length]; omega
  rw [answers_seq_iff rfl rfl rfl]
  exact and_congr_right fun hw => and_iff_right (lenOk_mono hw hle)

/-! ## The statements -/

/-- Settles O27: the lengths and positions of `pack7bit_length`, `pack7bit_data` and `pack7bit_index`. -/
theorem packEmitsIndexAndMaskedBytes : Obligations.PackEmitsIndexAndMaskedBytes := by
  refine fun xs s => ⟨rfl, fun hlen => ⟨pack7bit xs, ?answer, pack7bit_length xs, fun i hi => ?data, fun g hg => ?index⟩⟩
  case answer => exact answers_pack7bit_iff.mpr ⟨by rwa [pack7bit_length], rfl⟩
  case data =>
    have hdiv := Nat.div_add_mod i 7
    rw [pack7bit_data (Nat.mod_lt i (by decide)) (by omega), hdiv]
    rfl
  case index => exact ⟨_, pack7bit_index (by omega), fun _ hj => indexByte_group_getLsbD hj⟩

/-- Settles O28: the length and positions of `unpack7bit_length` and `unpack7bit_data`. -/
theorem unpackAssignsTheHighBit : Obligations.UnpackAssignsTheHighBit := by
  refine fun w s => ⟨rfl, fun hassign hlen => ⟨unpack7bit .assign w, ?answer, unpack7bit_length .assign w, fun j hj => ?byte⟩⟩
  case answer => exact answers_unpack7bit_iff.mpr ⟨hlen, by rw [hassign]⟩
  case byte =>
    have hj7 : j % 7 < 7 := Nat.mod_lt j (by decide)
    have hin : 8 * (j / 7) + 1 + j % 7 < w.length := by rw [unpack7bit_length] at hj; omega
    have hbyte := unpack7bit_data .assign hj7 hin
    rw [Nat.div_add_mod] at hbyte
    exact ⟨_, hbyte, restoreHighBit_assign_getLsbD _ _⟩

/-- Settles O30: the answers are the results, and `unpack7bit_pack7bit` is the law. -/
theorem unpackInvertsPack : Obligations.UnpackInvertsPack := by
  intro xs s r h t ht
  obtain ⟨-, rfl⟩ := answers_pack7bit_iff.mp h
  exact answers_unpack7bit_iff.mpr ⟨ht, (unpack7bit_pack7bit _ xs).symm⟩

/-- Settles O31: the answers are the results, and `PackedData` is the condition. -/
theorem packInvertsUnpackOnlyOnPackedData : Obligations.PackInvertsUnpackOnlyOnPackedData := by
  refine ⟨fun w s r hassign h t ht => ?inverts, fun s hassign hlen => ?spec_example⟩
  case inverts =>
    obtain ⟨-, rfl⟩ := answers_unpack7bit_iff.mp h
    rw [hassign, answers_pack7bit_iff, and_iff_right ht, eq_comm]
    exact pack7bit_unpack7bit_eq_iff w
  case spec_example =>
    exact ⟨answers_unpack7bit_iff.mpr ⟨hlen, by rw [hassign]; decide⟩, answers_pack7bit_iff.mpr ⟨hlen, by decide⟩⟩

end Sys2Proof.Machine
end

section
/-! SUPPORT. The identifier codec (Machine/MfgId.lean, R160 to R162) case by case, and what its two halves say of each other
(R163). -/

namespace Sys2Proof.Machine

/-! ## Identifier fields and their wire bytes -/

/-- R66: the identifier that a field holds, by its tag. -/
theorem idOfField_eq_some_iff {f : IdField} {id : Identifier} :
    idOfField f = some id ↔
      (f.tag = 0#8 ∧ id = .standard f.b0) ∨ (f.tag = 1#8 ∧ id = .extended f.b0 f.b1 f.b2) ∨ (f.tag = 2#8 ∧ id = .development) := by
  unfold idOfField
  by_cases h0 : f.tag = 0#8
  · simp [h0, eq_comm]
  by_cases h1 : f.tag = 1#8
  · simp [h1, eq_comm]
  by_cases h2 : f.tag = 2#8
  · simp [h2, eq_comm]
  · simp [h0, h1, h2]

theorem idOfField_isSome_iff (f : IdField) : (idOfField f).isSome = true ↔ f.tag.toNat ≤ 2 := by
  rw [idOfField_isSome, wfId, decide_eq_true_iff]

theorem encodableField_iff_encodable {f : IdField} {id : Identifier} (h : idOfField f = some id) :
    EncodableField f ↔ encodable id = true := by
  obtain ⟨htag, rfl⟩ | ⟨htag, rfl⟩ | ⟨htag, rfl⟩ := idOfField_eq_some_iff.mp h <;> simp [EncodableField, encodable, htag, and_assoc]

theorem encodableField_idField (id : Identifier) : EncodableField (idField id) ↔ encodable id = true :=
  encodableField_iff_encodable (idOfField_idField id)

theorem exists_idOfField_of_encodableField {f : IdField} (h : EncodableField f) : ∃ id, idOfField f = some id := by
  obtain ⟨htag, -⟩ | ⟨htag, -⟩ | htag := h
  · exact ⟨_, idOfField_eq_some_iff.mpr (.inl ⟨htag, rfl⟩)⟩
  · exact ⟨_, idOfField_eq_some_iff.mpr (.inr (.inl ⟨htag, rfl⟩))⟩
  · exact ⟨_, idOfField_eq_some_iff.mpr (.inr (.inr ⟨htag, rfl⟩))⟩

/-- R160: the wire bytes. -/
theorem mfgIdPack_of_encodableField {f : IdField} {id : Identifier} (h : idOfField f = some id) (he : EncodableField f) :
    mfgIdPack id = .ok (idBytes f) := by
  rw [encodableField_iff_encodable h] at he
  obtain ⟨htag, rfl⟩ | ⟨htag, rfl⟩ | ⟨htag, rfl⟩ := idOfField_eq_some_iff.mp h <;>
    simp_all [encodable, mfgIdPack, idBytes]

/-- R160: the refusal, with the identifier's own bytes. -/
theorem mfgIdPack_of_not_encodableField {f : IdField} {id : Identifier} (h : idOfField f = some id) (he : ¬ EncodableField f) :
    mfgIdPack id = .error (.invalidManufacturer (offendingBytes f)) := by
  rw [encodableField_iff_encodable h] at he
  obtain ⟨htag, rfl⟩ | ⟨htag, rfl⟩ | ⟨htag, rfl⟩ := idOfField_eq_some_iff.mp h
  · simp_all [encodable, mfgIdPack, offendingBytes]
  · simp_all [encodable, mfgIdPack, offendingBytes]
  · exact absurd rfl he

/-! ## The verdict of `mfg_id_unpack` for each lead byte -/

theorem standardLead_iff (region : StdIdHighRegion) (a : Byte) :
    standardLead region a = true ↔
      (1 ≤ a.toNat ∧ a.toNat ≤ 0x5F) ∨ ((0x61 ≤ a.toNat ∧ a.toNat ≤ 0x7C) ∧ region = .standard) := by
  simp [standardLead]

theorem standardLead_ne {region : StdIdHighRegion} {a : Byte} (h : standardLead region a = true) :
    a ≠ 0x00#8 ∧ a ≠ 0x7D#8 ∧ a ≠ 0x7E#8 ∧ a ≠ 0x7F#8 := by
  rw [standardLead_iff] at h
  refine ⟨?_, ?_, ?_, ?_⟩ <;> rintro rfl <;> simp at h

theorem mfgIdUnpack_nil (region : StdIdHighRegion) : mfgIdUnpack region [] = .error (.invalidData 0) := rfl

theorem mfgIdUnpack_zero_short (region : StdIdHighRegion) {rest : ByteSeq} (h : rest.length < 2) :
    mfgIdUnpack region (0x00#8 :: rest) = .error (.invalidData 0) := by
  simp [mfgIdUnpack, elem, h]

theorem mfgIdUnpack_zero (region : StdIdHighRegion) (b1 b2 : Byte) (rest : ByteSeq) :
    mfgIdUnpack region (0x00#8 :: b1 :: b2 :: rest) = .ok (.extended 0x00#8 b1 b2, 3) := by
  simp [mfgIdUnpack, elem]

theorem mfgIdUnpack_development (region : StdIdHighRegion) (rest : ByteSeq) :
    mfgIdUnpack region (0x7D#8 :: rest) = .ok (.development, 1) := by
  simp [mfgIdUnpack, elem]

theorem mfgIdUnpack_standard {region : StdIdHighRegion} {a : Byte} (rest : ByteSeq) (h : standardLead region a = true) :
    mfgIdUnpack region (a :: rest) = .ok (.standard a, 1) := by
  obtain ⟨h0, hD, -, -⟩ := standardLead_ne h
  simp [mfgIdUnpack, elem, h0, hD, h]

theorem mfgIdUnpack_rejected {region : StdIdHighRegion} {a : Byte} (rest : ByteSeq) (h0 : a ≠ 0x00#8) (hD : a ≠ 0x7D#8)
    (h : standardLead region a = false) : mfgIdUnpack region (a :: rest) = .error (.invalidManufacturer [a]) := by
  simp [mfgIdUnpack, elem, h0, hD, h]

/-- R162: the three ways to find an identifier. -/
theorem mfgIdUnpack_ok_cases {region : StdIdHighRegion} {xs : ByteSeq} {id : Identifier} {n : Nat}
    (h : mfgIdUnpack region xs = .ok (id, n)) :
    (∃ b1 b2 rest, xs = 0x00#8 :: b1 :: b2 :: rest ∧ id = .extended 0x00#8 b1 b2 ∧ n = 3) ∨
    (∃ rest, xs = 0x7D#8 :: rest ∧ id = .development ∧ n = 1) ∨
    (∃ a rest, xs = a :: rest ∧ standardLead region a = true ∧ id = .standard a ∧ n = 1) := by
  match xs with
  | [] => simp [mfgIdUnpack_nil] at h
  | a :: rest =>
    by_cases h0 : a = 0x00#8
    · subst h0
      match rest with
      | b1 :: b2 :: rest =>
        rw [mfgIdUnpack_zero] at h
        cases h
        exact .inl ⟨b1, b2, rest, rfl, rfl, rfl⟩
      | [] | [b1] => simp [mfgIdUnpack_zero_short] at h
    by_cases hD : a = 0x7D#8
    · subst hD
      rw [mfgIdUnpack_development] at h
      cases h
      exact .inr (.inl ⟨rest, rfl, rfl, rfl⟩)
    cases hlead : standardLead region a with
    | true =>
      rw [mfgIdUnpack_standard rest hlead] at h
      cases h
      exact .inr (.inr ⟨a, rest, rfl, hlead, rfl, rfl⟩)
    | false => simp [mfgIdUnpack_rejected rest h0 hD hlead] at h

/-! ## The two halves of the codec (R163) -/

theorem mfgIdPack_standard_of_lead {region : StdIdHighRegion} {a : Byte} (h : standardLead region a = true) :
    mfgIdPack (.standard a) = .ok [a] := by
  simp [mfgIdPack, standardLead_ne h]

/-- What was found packs to the bytes it was found in, and these alone are enough to find it. -/
theorem mfgIdUnpack_ok {region : StdIdHighRegion} {xs : ByteSeq} {id : Identifier} {n : Nat}
    (h : mfgIdUnpack region xs = .ok (id, n)) :
    mfgIdPack id = .ok (xs.take n) ∧ (xs.take n).length = n ∧ mfgIdUnpack region (xs.take n) = .ok (id, n) := by
  obtain ⟨b1, b2, rest, rfl, rfl, rfl⟩ | ⟨rest, rfl, rfl, rfl⟩ | ⟨a, rest, rfl, hlead, rfl, rfl⟩ := mfgIdUnpack_ok_cases h
  · exact ⟨rfl, rfl, mfgIdUnpack_zero region b1 b2 []⟩
  · exact ⟨rfl, rfl, mfgIdUnpack_development region []⟩
  · exact ⟨mfgIdPack_standard_of_lead hlead, rfl, mfgIdUnpack_standard [] hlead⟩

/-! ## No operation returns an identifier that is not encodable (R163 (d)) -/

/-- R163 (d): the identifier in a result, where there is one, is encodable. -/
def identifierEncodable : Result → Bool
  | .idn id _ => encodable id
  | .msg (.manufacturerSpecific id _) => encodable id
  | _ => true

/-- R181: a parsed frame's byte 1 is classified so that a standard identifier is none of the reserved lead bytes. -/
theorem sysexParse_ok_encodable {xs : ByteSeq} {m : Message} (h : sysexParse xs = .ok m) :
    identifierEncodable (.msg m) = true := by
  unfold sysexParse at h
  simp only at h
  split at h
  · cases h
  split at h
  · cases h
  split at h
  · cases h
  split at h
  · split at h <;> cases h
    rfl
  next huniversal =>
    split at h
    · cases h; rfl
    split at h
    · cases h; rfl
    next hD h0 =>
      cases h
      rw [not_or] at huniversal
      simp [identifierEncodable, encodable, h0, hD, huniversal]

theorem operation_ok_encodable {P : Params} {i : Instr} {r : Result} (h : operation P i = .ok r) :
    identifierEncodable r = true := by
  cases i with
  | mfgIdUnpack xs =>
    obtain ⟨⟨id, n⟩, hid, rfl⟩ := except_map_ok.mp h
    exact (mfgIdPack_ok (mfgIdUnpack_ok hid).1).1
  | sysexParse xs =>
    obtain ⟨m, hm, rfl⟩ := except_map_ok.mp h
    exact sysexParse_ok_encodable hm
  | byteOfBits xs =>
    simp only [operation] at h
    split at h <;> cases h
    rfl
  | mfgIdPack f =>
    simp only [operation] at h
    split at h
    · obtain ⟨_, -, rfl⟩ := except_map_ok.mp h
      rfl
    · cases h
  | sysexEncode f =>
    simp only [operation] at h
    split at h
    · obtain ⟨_, -, rfl⟩ := except_map_ok.mp h
      rfl
    · cases h
  | _ => cases h; rfl

theorem encodableField_of_ident_mem {r : Result} {f : IdField} (hr : identifierEncodable r = true)
    (h : Field.ident f ∈ resultFields r) : EncodableField f := by
  cases r with
  | idn id n =>
    obtain rfl : f = idField id := by simpa [resultFields] using h
    exact (encodableField_idField id).mpr hr
  | _ => simp [resultFields] at h

/-- Only a manufacturer-specific message leaves with tag 2 (R67). -/
theorem encodableField_of_msg_mem {r : Result} {m : MsgField} (hr : identifierEncodable r = true)
    (h : Field.msg m ∈ resultFields r) (htag : m.tag = 2#8) : EncodableField m.id := by
  cases r with
  | msg message =>
    obtain rfl : m = msgField message := by simpa [resultFields] using h
    match message with
    | .manufacturerSpecific id p => exact (encodableField_idField id).mpr hr
    | .universal .nonRealTime _ _ | .universal .realTime _ _ => simp [msgField] at htag
  | _ => simp [resultFields] at h

end Sys2Proof.Machine
end

section
/-! SUPPORT. What the two identifier operations answer, and the statements about them (R160 to R163): O32, O33 and O34. -/

namespace Sys2Proof.Machine

/-! ## What each operation answers -/

/-- R206: an error of the operation's own, where the operands are in their domains and within `MAX_SEQ_LEN`. -/
theorem answers_error {i : Instr} {s : State} {e : Err} (hlegal : operandsLegal s.params i = true)
    (hlens : (operandSeqLengths i).all (lenFits s.params) = true) (hop : operation s.params i = .error e) :
    Answers i s (errResponse e) := by
  rw [answers_iff_respond, hlegal, hop, respond_error e hlens]

theorem answers_mfgIdPack_iff {f : IdField} {s : State} {r : ByteSeq} :
    Answers (.mfgIdPack f) s (okFields [.seq r]) ↔
      LenOk s r.length ∧ ∃ id, idOfField f = some id ∧ mfgIdPack id = .ok r := by
  rw [answers_okFields_iff]
  constructor
  · rintro ⟨hlegal, -, result, hop, hfits, hfields⟩
    obtain ⟨id, hid⟩ := Option.isSome_iff_exists.mp hlegal
    obtain ⟨r', hpack, rfl⟩ := except_map_ok.mp (by simpa [operation, hid] using hop)
    obtain rfl : r = r' := by simpa [resultFields] using hfields
    exact ⟨by simpa [resultLens, lenFits_iff_lenOk] using hfits, id, hid, hpack⟩
  · rintro ⟨hlen, id, hid, hpack⟩
    rw [← lenFits_iff_lenOk] at hlen
    exact ⟨by simp [operandsLegal, hid], rfl, .seq r, by simp [operation, hid, hpack, Except.map],
      by simpa [resultLens] using hlen, rfl⟩

theorem answers_mfgIdPack_error {f : IdField} {s : State} {id : Identifier} {e : Err} (hid : idOfField f = some id)
    (h : mfgIdPack id = .error e) : Answers (.mfgIdPack f) s (errResponse e) :=
  answers_error (by simp [operandsLegal, hid]) rfl (by simpa [operation, hid] using except_map_error.mpr h)

theorem answers_mfgIdUnpack_iff {xs : ByteSeq} {s : State} {f : IdField} {n : Nat} :
    Answers (.mfgIdUnpack xs) s (okFields [.ident f, .nat n]) ↔
      LenOk s xs.length ∧ ∃ id, mfgIdUnpack s.params.stdIdHighRegion xs = .ok (id, n) ∧ f = idField id := by
  rw [answers_okFields_iff]
  constructor
  · rintro ⟨-, hlens, result, hop, -, hfields⟩
    obtain ⟨⟨id, n'⟩, hid, rfl⟩ := except_map_ok.mp hop
    obtain ⟨rfl, rfl⟩ : f = idField id ∧ n = n' := by simpa [resultFields] using hfields
    exact ⟨by simpa [operandSeqLengths, lenFits_iff_lenOk] using hlens, id, hid, rfl⟩
  · rintro ⟨hlen, id, hid, rfl⟩
    rw [← lenFits_iff_lenOk] at hlen
    exact ⟨rfl, by simpa [operandSeqLengths] using hlen, .idn id n, except_map_ok.mpr ⟨(id, n), hid, rfl⟩, rfl, rfl⟩

theorem answers_mfgIdUnpack_error {xs : ByteSeq} {s : State} {e : Err} (hlen : LenOk s xs.length)
    (h : mfgIdUnpack s.params.stdIdHighRegion xs = .error e) : Answers (.mfgIdUnpack xs) s (errResponse e) := by
  rw [← lenFits_iff_lenOk] at hlen
  exact answers_error rfl (by simpa [operandSeqLengths] using hlen) (except_map_error.mpr h)

/-! ## The statements -/

/-- Settles O32: a field with an identifier packs to its wire bytes or is refused; a field without one is out of its domain. -/
theorem identifierPackGivesWireBytes : Obligations.IdentifierPackGivesWireBytes := by
  refine fun f s => ⟨rfl, fun he hlen => ?encodable, fun htag he => ?refused, fun htag => ?reserved⟩
  case encodable =>
    obtain ⟨id, hid⟩ := exists_idOfField_of_encodableField he
    have hpack := mfgIdPack_of_encodableField hid he
    obtain ⟨-, -, hle⟩ := mfgIdPack_ok hpack
    exact answers_mfgIdPack_iff.mpr ⟨lenOk_mono hlen hle, id, hid, hpack⟩
  case refused =>
    obtain ⟨id, hid⟩ := Option.isSome_iff_exists.mp ((idOfField_isSome_iff f).mpr htag)
    exact answers_mfgIdPack_error hid (mfgIdPack_of_not_encodableField hid he)
  case reserved =>
    have : ¬ (idOfField f).isSome = true := by rw [idOfField_isSome_iff]; omega
    exact answers_illegalOperand (by simpa [operandsLegal] using this)

/-- Settles O33: each clause is one case of `mfgIdUnpack`. -/
theorem identifierUnpackClassifiesTheLeadByte : Obligations.IdentifierUnpackClassifiesTheLeadByte := by
  refine ⟨fun _ => rfl, fun s => ?nil, fun a rest s hlen => ?_⟩
  case nil => exact answers_mfgIdUnpack_error (fun _ _ => Nat.zero_le _) (mfgIdUnpack_nil _)
  have standard (h : standardLead s.params.stdIdHighRegion a = true) :
      Answers (.mfgIdUnpack (a :: rest)) s (okFields [.ident (standardField a), .nat 1]) :=
    answers_mfgIdUnpack_iff.mpr ⟨hlen, _, mfgIdUnpack_standard rest h, rfl⟩
  have rejected (h0 : a ≠ 0x00#8) (hD : a ≠ 0x7D#8) (h : ¬ standardLead s.params.stdIdHighRegion a = true) :
      Answers (.mfgIdUnpack (a :: rest)) s (failed 0x03#8 (.bytes [a])) :=
    answers_mfgIdUnpack_error hlen (mfgIdUnpack_rejected rest h0 hD (Bool.eq_false_of_not_eq_true h))
  rw [standardLead_iff] at standard rejected
  refine ⟨?short, ?extended, fun h1 h5F => standard (.inl ⟨h1, h5F⟩),
    fun h61 h7C hregion => standard (.inr ⟨⟨h61, h7C⟩, hregion⟩), fun h61 h7C hregion => ?high, ?development, fun h => ?reserved⟩
  case short =>
    rintro rfl hshort
    exact answers_mfgIdUnpack_error hlen (mfgIdUnpack_zero_short _ hshort)
  case extended =>
    rintro rfl htwo
    obtain ⟨b1, b2, rest, rfl⟩ : ∃ b1 b2 rest', rest = b1 :: b2 :: rest' := by
      match rest, htwo with
      | b1 :: b2 :: rest', _ => exact ⟨b1, b2, rest', rfl⟩
    exact answers_mfgIdUnpack_iff.mpr ⟨hlen, _, mfgIdUnpack_zero _ b1 b2 rest, rfl⟩
  case high => exact rejected (by bv_omega) (by bv_omega) (by simp only [hregion, reduceCtorEq, and_false, or_false]; omega)
  case development =>
    rintro rfl
    exact answers_mfgIdUnpack_iff.mpr ⟨hlen, _, mfgIdUnpack_development _ rest, rfl⟩
  case reserved => exact rejected (by bv_omega) (by bv_omega) (by bv_omega)

/-- Settles O34: (a) and (b) by `mfgIdUnpack_ok`, (c) by O32 and O33, (d) by `operation_ok_encodable`. -/
theorem identifierCodecLaws : Obligations.IdentifierCodecLaws := by
  refine ⟨?unpack_then_pack, ?pack_then_unpack, fun b s hlen hb => ?packed_and_rejected, ?encodable⟩
  case unpack_then_pack =>
    intro xs s f n h t ht
    obtain ⟨-, id, hid, rfl⟩ := answers_mfgIdUnpack_iff.mp h
    obtain ⟨hpack, -⟩ := mfgIdUnpack_ok hid
    obtain ⟨-, -, hle⟩ := mfgIdPack_ok hpack
    exact answers_mfgIdPack_iff.mpr ⟨lenOk_mono ht hle, id, idOfField_idField id, hpack⟩
  case pack_then_unpack =>
    intro xs s f n r t h hr u hregion hlen
    obtain ⟨-, id, hid, rfl⟩ := answers_mfgIdUnpack_iff.mp h
    obtain ⟨-, id', hid', hr⟩ := answers_mfgIdPack_iff.mp hr
    obtain rfl : id = id' := Option.some.inj ((idOfField_idField id).symm.trans hid')
    obtain ⟨hpack, htake, hagain⟩ := mfgIdUnpack_ok hid
    obtain rfl : r = xs.take n := Except.ok.inj (hr.symm.trans hpack)
    exact answers_mfgIdUnpack_iff.mpr ⟨hlen, id, by rw [hregion, hagain, htake], rfl⟩
  case packed_and_rejected =>
    constructor
    · have : EncodableField (standardField b) := .inl ⟨rfl, by simp only [standardField]; bv_omega⟩
      obtain ⟨-, packs, -⟩ := identifierPackGivesWireBytes (standardField b) s
      exact packs this hlen
    · obtain ⟨-, -, hclass⟩ := identifierUnpackClassifiesTheLeadByte
      obtain ⟨-, -, -, -, high, -, reserved⟩ := hclass b [] s (lenOk_mono hlen (Nat.succ_le_succ (Nat.zero_le 2)))
      obtain h60 | h80 | ⟨h61, h7C, hregion⟩ := hb
      · exact reserved (.inl h60)
      · exact reserved (.inr (.inr (.inr h80)))
      · exact high h61 h7C hregion
  case encodable =>
    intro i s fs h
    obtain ⟨-, -, r, hop, -, rfl⟩ := answers_okFields_iff.mp h
    have hr := operation_ok_encodable hop
    exact ⟨fun f => encodableField_of_ident_mem hr, fun m => encodableField_of_msg_mem hr⟩

end Sys2Proof.Machine
end

section
/-! SUPPORT. The frame parser and encoder (Machine/Sysex.lean, R180 to R185) case by case, and that parsing and encoding are
one relation between frames and messages (R186 to R188). -/

namespace Sys2Proof.Machine

/-! ## Messages and their payloads -/

/-- R31: the payload of either form. -/
def messagePayload : Message → ByteSeq
  | .universal _ _ p => p
  | .manufacturerSpecific _ p => p

theorem resultLens_msg (m : Message) : resultLens (.msg m) = [(messagePayload m).length] := by cases m <;> rfl

/-- R67: the message that a field holds, by its tag. -/
theorem msgOfField_eq_some_iff {f : MsgField} {m : Message} :
    msgOfField f = some m ↔
      (f.tag = 0#8 ∧ m = .universal .nonRealTime ⟨f.dc, f.s1, f.s2⟩ f.payload) ∨
      (f.tag = 1#8 ∧ m = .universal .realTime ⟨f.dc, f.s1, f.s2⟩ f.payload) ∨
      (f.tag = 2#8 ∧ ∃ id, idOfField f.id = some id ∧ m = .manufacturerSpecific id f.payload) := by
  unfold msgOfField
  by_cases h0 : f.tag = 0#8
  · simp [h0, eq_comm]
  by_cases h1 : f.tag = 1#8
  · simp [h1, eq_comm]
  by_cases h2 : f.tag = 2#8
  · cases idOfField f.id <;> simp [h2, eq_comm]
  · simp [h0, h1, h2]

theorem msgOfField_isSome_iff (f : MsgField) :
    (msgOfField f).isSome = true ↔ f.tag.toNat ≤ 1 ∨ (f.tag.toNat = 2 ∧ f.id.tag.toNat ≤ 2) := by
  simp [msgOfField_isSome, wfMsg, wfId]

theorem messagePayload_of_msgOfField {f : MsgField} {m : Message} (h : msgOfField f = some m) :
    messagePayload m = f.payload := by
  obtain ⟨-, rfl⟩ | ⟨-, rfl⟩ | ⟨-, _, -, rfl⟩ := msgOfField_eq_some_iff.mp h <;> rfl

/-! ## The encoder (R185) -/

/-- R160: the three ways to have wire bytes. -/
theorem mfgIdPack_ok_cases {id : Identifier} {bs : ByteSeq} (h : mfgIdPack id = .ok bs) :
    (∃ a, id = .standard a ∧ bs = [a] ∧ a ≠ 0x00#8 ∧ a ≠ 0x7D#8 ∧ a ≠ 0x7E#8 ∧ a ≠ 0x7F#8) ∨
    (∃ b1 b2, id = .extended 0x00#8 b1 b2 ∧ bs = [0x00#8, b1, b2]) ∨
    (id = .development ∧ bs = [0x7D#8]) := by
  cases id with
  | standard a =>
    simp only [mfgIdPack] at h
    split at h <;> cases h
    next ha => exact .inl ⟨a, rfl, rfl, by simpa [not_or] using ha⟩
  | extended b0 b1 b2 =>
    simp only [mfgIdPack] at h
    split at h <;> cases h
    next hb0 =>
      obtain rfl := not_ne_iff.mp hb0
      exact .inr (.inl ⟨b1, b2, rfl, rfl⟩)
  | development =>
    cases h
    exact .inr (.inr ⟨rfl, rfl⟩)

theorem mfgIdPack_standard {a : Byte} (h0 : a ≠ 0x00#8) (hD : a ≠ 0x7D#8) (hE : a ≠ 0x7E#8) (hF : a ≠ 0x7F#8) :
    mfgIdPack (.standard a) = .ok [a] := by
  simp [mfgIdPack, h0, hD, hE, hF]

theorem sysexEncode_manufacturerSpecific {id : Identifier} {bs : ByteSeq} (h : mfgIdPack id = .ok bs) (p : ByteSeq) :
    sysexEncode (.manufacturerSpecific id p) = .ok ([0xF0#8] ++ bs ++ p ++ [0xF7#8]) := by
  simp [sysexEncode, h]

theorem sysexEncode_manufacturerSpecific_error {id : Identifier} {e : Err} (h : mfgIdPack id = .error e) (p : ByteSeq) :
    sysexEncode (.manufacturerSpecific id p) = .error e := by
  simp [sysexEncode, h]

/-- R185: every frame is that of a universal message, or of an identifier with its wire bytes. -/
theorem sysexEncode_ok_cases {m : Message} {r : ByteSeq} (h : sysexEncode m = .ok r) :
    (∃ k dc s1 s2 p, m = .universal k ⟨dc, s1, s2⟩ p ∧ r = [0xF0#8, kindByte k, dc, s1, s2] ++ p ++ [0xF7#8]) ∨
    (∃ id bs p, m = .manufacturerSpecific id p ∧ mfgIdPack id = .ok bs ∧ r = [0xF0#8] ++ bs ++ p ++ [0xF7#8]) := by
  cases m with
  | universal k header p =>
    cases h
    exact .inl ⟨k, _, _, _, p, rfl, rfl⟩
  | manufacturerSpecific id p =>
    cases hid : mfgIdPack id with
    | error e => simp [sysexEncode_manufacturerSpecific_error hid] at h
    | ok bs =>
      rw [sysexEncode_manufacturerSpecific hid] at h
      cases h
      exact .inr ⟨id, bs, p, rfl, hid, rfl⟩

theorem messagePayload_length_le {m : Message} {r : ByteSeq} (h : sysexEncode m = .ok r) :
    (messagePayload m).length ≤ r.length := by
  obtain ⟨k, dc, s1, s2, p, rfl, rfl⟩ | ⟨id, bs, p, rfl, -, rfl⟩ := sysexEncode_ok_cases h <;>
    simp only [messagePayload, List.length_append] <;> omega

/-- R186: with two bytes of payload, or with no standard or development identifier, a frame has five bytes or more. -/
theorem five_le_length_of_sysexEncode {f : MsgField} {m : Message} {r : ByteSeq} (hm : msgOfField f = some m)
    (hr : sysexEncode m = .ok r) (hlong : ¬ (f.tag = 2#8 ∧ f.id.tag ≠ 1#8 ∧ f.payload.length < 2)) : 5 ≤ r.length := by
  obtain ⟨-, rfl⟩ | ⟨-, rfl⟩ | ⟨htag, id, hid, rfl⟩ := msgOfField_eq_some_iff.mp hm
  · cases hr; simp
  · cases hr; simp
  obtain ⟨bs, hbs, rfl⟩ : ∃ bs, mfgIdPack id = .ok bs ∧ r = [0xF0#8] ++ bs ++ f.payload ++ [0xF7#8] := by
    simpa using sysexEncode_ok_cases hr
  have enough : 3 ≤ bs.length + f.payload.length := by
    by_cases hextended : f.id.tag = 1#8
    · obtain rfl : id = .extended f.id.b0 f.id.b1 f.id.b2 := by simpa [idOfField, hextended, eq_comm] using hid
      obtain ⟨-, rfl⟩ : f.id.b0 = 0x00#8 ∧ bs = [0x00#8, f.id.b1, f.id.b2] := by simpa using mfgIdPack_ok_cases hbs
      simp
    · have hpayload : ¬ f.payload.length < 2 := fun hp => hlong ⟨htag, hextended, hp⟩
      obtain ⟨-, hone, -⟩ := mfgIdPack_ok hbs
      omega
  simp only [List.length_append, List.length_singleton]
  omega

/-! ## The parser (R180, R181) -/

/-- R180, R182: when parsing fails, and how: by the length, byte 0, byte 1 and the last byte. -/
theorem sysexParse_error_iff {xs : ByteSeq} {e : Err} :
    sysexParse xs = .error e ↔
      (xs.length < 5 ∧ e = .invalidData 0) ∨
      (5 ≤ xs.length ∧ (elem xs 0 ≠ 0xF0#8 ∨ elem xs (xs.length - 1) ≠ 0xF7#8) ∧ e = .badFormat) ∨
      (xs.length = 5 ∧ elem xs 0 = 0xF0#8 ∧ elem xs (xs.length - 1) = 0xF7#8 ∧ (elem xs 1 = 0x7E#8 ∨ elem xs 1 = 0x7F#8) ∧
        e = .invalidData 0) := by
  have error_eq_error (e' : Err) : (.error e' : Except Err Message) = .error e ↔ e = e' := by simp [eq_comm]
  unfold sysexParse
  by_cases hlen : xs.length < 5
  · have : xs.length ≠ 5 := by omega
    simp [hlen, this, error_eq_error]
  have hlen' : 5 ≤ xs.length := by omega
  by_cases hfirst : elem xs 0 = 0xF0#8
  case neg => simp [hlen, hlen', hfirst, error_eq_error]
  by_cases hlast : elem xs (xs.length - 1) = 0xF7#8
  case neg => simp [hlen, hlen', hfirst, hlast, error_eq_error]
  by_cases huniversal : elem xs 1 = 0x7E#8 ∨ elem xs 1 = 0x7F#8
  · have hshort : xs.length < 6 ↔ xs.length = 5 := by omega
    simp only [hlen, hfirst, hlast, huniversal, hshort]
    by_cases h5 : xs.length = 5 <;> simp [h5, error_eq_error]
  · by_cases hD : elem xs 1 = 0x7D#8 <;> by_cases h0 : elem xs 1 = 0x00#8 <;>
      simp [hlen, hlen', hfirst, hlast, huniversal, hD, h0]

theorem sysexParse_universal (k : Kind) (dc s1 s2 : Byte) (p : ByteSeq) :
    sysexParse ([0xF0#8, kindByte k, dc, s1, s2] ++ p ++ [0xF7#8]) = .ok (.universal k ⟨dc, s1, s2⟩ p) := by
  cases k <;> simp +arith [sysexParse, kindByte, elem, slice]

theorem sysexParse_extended (b1 b2 : Byte) (p : ByteSeq) :
    sysexParse ([0xF0#8, 0x00#8, b1, b2] ++ p ++ [0xF7#8]) =
      .ok (.manufacturerSpecific (.extended 0x00#8 b1 b2) p) := by
  simp [sysexParse, elem, slice]

theorem sysexParse_development {p : ByteSeq} (h : 2 ≤ p.length) :
    sysexParse ([0xF0#8, 0x7D#8] ++ p ++ [0xF7#8]) = .ok (.manufacturerSpecific .development p) := by
  have : ¬ p.length + 1 + 1 + 1 < 5 := by omega
  simp [sysexParse, elem, slice, this]

theorem sysexParse_standard {a : Byte} {p : ByteSeq} (h0 : a ≠ 0x00#8) (hD : a ≠ 0x7D#8) (hE : a ≠ 0x7E#8)
    (hF : a ≠ 0x7F#8) (h : 2 ≤ p.length) :
    sysexParse ([0xF0#8, a] ++ p ++ [0xF7#8]) = .ok (.manufacturerSpecific (.standard a) p) := by
  have : ¬ p.length + 1 + 1 + 1 < 5 := by omega
  simp [sysexParse, elem, slice, this, h0, hD, hE, hF]

/-- R180: what passes the checks is a frame with two bytes or more after byte 1. -/
theorem exists_frame {xs : ByteSeq} (hlen : 5 ≤ xs.length) (hfirst : elem xs 0 = 0xF0#8)
    (hlast : elem xs (xs.length - 1) = 0xF7#8) : ∃ a b1 b2 p, xs = [0xF0#8, a, b1, b2] ++ p ++ [0xF7#8] := by
  obtain rfl | ⟨ys, z, rfl⟩ := List.eq_nil_or_concat xs
  · simp at hlen
  obtain rfl : z = 0xF7#8 := by simpa [elem] using hlast
  match ys, hlen with
  | b0 :: a :: b1 :: b2 :: p, _ =>
    obtain rfl : b0 = 0xF0#8 := by simpa [elem] using hfirst
    exact ⟨a, b1, b2, p, List.concat_eq_append⟩

/-! ## Parsing and encoding undo each other -/

/-- R188: a frame is parsed to the message it was encoded from, unless it is one of the short frames of R186. -/
theorem sysexParse_of_sysexEncode {m : Message} {r : ByteSeq} (h : sysexEncode m = .ok r) (hlen : 5 ≤ r.length) :
    sysexParse r = .ok m := by
  obtain ⟨k, dc, s1, s2, p, rfl, rfl⟩ | ⟨id, bs, p, rfl, hid, rfl⟩ := sysexEncode_ok_cases h
  · exact sysexParse_universal k dc s1 s2 p
  obtain ⟨a, rfl, rfl, h0, hD, hE, hF⟩ | ⟨b1, b2, rfl, rfl⟩ | ⟨rfl, rfl⟩ := mfgIdPack_ok_cases hid
  · exact sysexParse_standard h0 hD hE hF (by simpa using hlen)
  · exact sysexParse_extended b1 b2 p
  · exact sysexParse_development (by simpa using hlen)

/-- R181: a frame with two bytes or more after byte 1 is a message's, unless byte 1 is a kind byte and there are just two. -/
theorem exists_sysexEncode (a b1 b2 : Byte) (p : ByteSeq) (h : (a = 0x7E#8 ∨ a = 0x7F#8) → p ≠ []) :
    ∃ m, sysexEncode m = .ok ([0xF0#8, a, b1, b2] ++ p ++ [0xF7#8]) := by
  by_cases huniversal : a = 0x7E#8 ∨ a = 0x7F#8
  · obtain ⟨s2, p, rfl⟩ := List.exists_cons_of_ne_nil (h huniversal)
    obtain rfl | rfl := huniversal
    · exact ⟨.universal .nonRealTime ⟨b1, b2, s2⟩ p, rfl⟩
    · exact ⟨.universal .realTime ⟨b1, b2, s2⟩ p, rfl⟩
  obtain ⟨hE, hF⟩ := not_or.mp huniversal
  by_cases hD : a = 0x7D#8
  · subst hD
    exact ⟨.manufacturerSpecific .development (b1 :: b2 :: p), rfl⟩
  by_cases h0 : a = 0x00#8
  · subst h0
    exact ⟨.manufacturerSpecific (.extended 0x00#8 b1 b2) p, rfl⟩
  · exact ⟨.manufacturerSpecific (.standard a) (b1 :: b2 :: p),
      sysexEncode_manufacturerSpecific (mfgIdPack_standard h0 hD hE hF) _⟩

/-- R187: a parsed sequence has passed the checks, so it is some message's frame, and parsing gives that message. -/
theorem sysexEncode_of_sysexParse {xs : ByteSeq} {m : Message} (h : sysexParse xs = .ok m) : sysexEncode m = .ok xs := by
  have noError (e : Err) : ¬ sysexParse xs = .error e := by simp [h]
  have hlen : 5 ≤ xs.length := by
    by_contra hshort
    exact noError _ (sysexParse_error_iff.mpr (.inl ⟨by omega, rfl⟩))
  have hends : ¬ (elem xs 0 ≠ 0xF0#8 ∨ elem xs (xs.length - 1) ≠ 0xF7#8) := fun hbad =>
    noError _ (sysexParse_error_iff.mpr (.inr (.inl ⟨hlen, hbad, rfl⟩)))
  obtain ⟨hfirst, hlast⟩ : elem xs 0 = 0xF0#8 ∧ elem xs (xs.length - 1) = 0xF7#8 := by simpa [not_or] using hends
  obtain ⟨a, b1, b2, p, rfl⟩ := exists_frame hlen hfirst hlast
  have hpayload : (a = 0x7E#8 ∨ a = 0x7F#8) → p ≠ [] := by
    rintro ha rfl
    exact noError _ (sysexParse_error_iff.mpr (.inr (.inr ⟨rfl, hfirst, hlast, ha, rfl⟩)))
  obtain ⟨m', hm'⟩ := exists_sysexEncode a b1 b2 p hpayload
  obtain rfl : m' = m := Except.ok.inj ((sysexParse_of_sysexEncode hm' hlen).symm.trans h)
  exact hm'

end Sys2Proof.Machine
end

section
/-! SUPPORT. What the frame parser and the encoder answer, and the statements about them (R180 to R188): O35 to O40. -/

namespace Sys2Proof.Machine

/-! ## What each operation answers -/

theorem answers_unique {i : Instr} {s : State} {r r' : Response} (h : Answers i s r) (h' : Answers i s r') : r = r' :=
  (answers_iff_respond.mp h).symm.trans (answers_iff_respond.mp h')

/-- R204: an operand sequence above `MAX_SEQ_LEN`, where the operands are in their domains. -/
theorem answers_capacity {i : Instr} {s : State} (hlegal : operandsLegal s.params i = true)
    (hlens : (operandSeqLengths i).all (lenFits s.params) = false) : Answers i s (errResponse .capacity) := by
  rw [answers_iff_respond, hlegal, respond_capacity _ hlens]

theorem answers_sysexParse_iff {xs : ByteSeq} {s : State} {f : MsgField} :
    Answers (.sysexParse xs) s (okFields [.msg f]) ↔ LenOk s xs.length ∧ ∃ m, sysexParse xs = .ok m ∧ f = msgField m := by
  rw [answers_okFields_iff]
  constructor
  · rintro ⟨-, hlens, result, hop, -, hfields⟩
    obtain ⟨m, hm, rfl⟩ := except_map_ok.mp hop
    exact ⟨by simpa [operandSeqLengths, lenFits_iff_lenOk] using hlens, m, hm, by simpa [resultFields] using hfields⟩
  · rintro ⟨hlen, m, hm, rfl⟩
    have hpayload := lenOk_mono hlen (messagePayload_length_le (sysexEncode_of_sysexParse hm))
    rw [← lenFits_iff_lenOk] at hlen hpayload
    exact ⟨rfl, by simpa [operandSeqLengths] using hlen, .msg m, except_map_ok.mpr ⟨m, hm, rfl⟩,
      by simpa [resultLens_msg] using hpayload, rfl⟩

theorem answers_sysexParse_error {xs : ByteSeq} {s : State} {e : Err} (hlen : LenOk s xs.length)
    (h : sysexParse xs = .error e) : Answers (.sysexParse xs) s (errResponse e) := by
  rw [← lenFits_iff_lenOk] at hlen
  exact answers_error rfl (by simpa [operandSeqLengths] using hlen) (except_map_error.mpr h)

theorem answers_sysexParse_capacity {xs : ByteSeq} {s : State} (hlen : ¬ LenOk s xs.length) :
    Answers (.sysexParse xs) s (errResponse .capacity) := by
  rw [← lenFits_iff_lenOk, Bool.not_eq_true] at hlen
  exact answers_capacity rfl (by simpa [operandSeqLengths] using hlen)

/-- R180, R204: an error of the parser's own, or Capacity for the length. -/
theorem answers_sysexParse_failed_cases {xs : ByteSeq} {s : State} {st : Byte} {d : Detail}
    (h : Answers (.sysexParse xs) s (failed st d)) :
    (¬ LenOk s xs.length ∧ errResponse .capacity = failed st d) ∨
    (LenOk s xs.length ∧ ∃ e, sysexParse xs = .error e ∧ errResponse e = failed st d) := by
  by_cases hlen : LenOk s xs.length
  · cases hparse : sysexParse xs with
    | error e => exact .inr ⟨hlen, e, rfl, answers_unique (answers_sysexParse_error hlen hparse) h⟩
    | ok m =>
      have := answers_unique (answers_sysexParse_iff.mpr ⟨hlen, m, hparse, rfl⟩) h
      simp [okFields, failed] at this
  · exact .inl ⟨hlen, answers_unique (answers_sysexParse_capacity hlen) h⟩

/-- R204: the frame is longer than the payload, so that the payload fits where it does. -/
theorem answers_sysexEncode_iff {f : MsgField} {s : State} {r : ByteSeq} :
    Answers (.sysexEncode f) s (okFields [.seq r]) ↔
      LenOk s r.length ∧ ∃ m, msgOfField f = some m ∧ sysexEncode m = .ok r := by
  rw [answers_okFields_iff]
  constructor
  · rintro ⟨hlegal, -, result, hop, hfits, hfields⟩
    obtain ⟨m, hm⟩ := Option.isSome_iff_exists.mp hlegal
    obtain ⟨r', hr', rfl⟩ := except_map_ok.mp (by simpa [operation, hm] using hop)
    obtain rfl : r = r' := by simpa [resultFields] using hfields
    exact ⟨by simpa [resultLens, lenFits_iff_lenOk] using hfits, m, hm, hr'⟩
  · rintro ⟨hlen, m, hm, hr⟩
    have hpayload := lenOk_mono hlen (messagePayload_length_le hr)
    rw [messagePayload_of_msgOfField hm] at hpayload
    rw [← lenFits_iff_lenOk] at hlen hpayload
    exact ⟨by simp [operandsLegal, hm], by simpa [operandSeqLengths] using hpayload, .seq r,
      by simp [operation, hm, hr, Except.map], by simpa [resultLens] using hlen, rfl⟩

theorem answers_sysexEncode_error {f : MsgField} {s : State} {m : Message} {e : Err} (hlen : LenOk s f.payload.length)
    (hm : msgOfField f = some m) (h : sysexEncode m = .error e) : Answers (.sysexEncode f) s (errResponse e) := by
  rw [← lenFits_iff_lenOk] at hlen
  exact answers_error (by simp [operandsLegal, hm]) (by simpa [operandSeqLengths] using hlen)
    (by simpa [operation, hm] using except_map_error.mpr h)

/-! ## The statements -/

/-- Settles O37: each clause is one case of `msgOfField`, and with tag 2 one of `mfgIdPack`. -/
theorem sysexEncodeEmitsTheFrame : Obligations.SysexEncodeEmitsTheFrame := by
  refine fun f s => ⟨rfl, fun htag hlen => ?nonRealTime, fun htag hlen => ?realTime, fun htag he hlen => ?manufacturer,
    fun htag hid he hlen => ?refused, fun h => ?reserved⟩
  case nonRealTime =>
    exact answers_sysexEncode_iff.mpr ⟨lenOk_mono hlen (by simp; omega), _, msgOfField_eq_some_iff.mpr (.inl ⟨htag, rfl⟩), rfl⟩
  case realTime =>
    exact answers_sysexEncode_iff.mpr
      ⟨lenOk_mono hlen (by simp; omega), _, msgOfField_eq_some_iff.mpr (.inr (.inl ⟨htag, rfl⟩)), rfl⟩
  case manufacturer =>
    obtain ⟨id, hid⟩ := exists_idOfField_of_encodableField he
    exact answers_sysexEncode_iff.mpr ⟨lenOk_mono hlen (by simp; omega), _,
      msgOfField_eq_some_iff.mpr (.inr (.inr ⟨htag, id, hid, rfl⟩)),
      sysexEncode_manufacturerSpecific (mfgIdPack_of_encodableField hid he) _⟩
  case refused =>
    obtain ⟨id, hid⟩ := Option.isSome_iff_exists.mp ((idOfField_isSome_iff f.id).mpr hid)
    exact answers_sysexEncode_error hlen (msgOfField_eq_some_iff.mpr (.inr (.inr ⟨htag, id, hid, rfl⟩)))
      (sysexEncode_manufacturerSpecific_error (mfgIdPack_of_not_encodableField hid he) _)
  case reserved =>
    have : ¬ (msgOfField f).isSome = true := by rw [msgOfField_isSome_iff]; bv_omega
    exact answers_illegalOperand (by simpa [operandsLegal] using this)

/-- Settles O35: the errors by `sysexParse_error_iff`, and each class of byte 1 by its frame. -/
theorem sysexParseChecksAndClassifies : Obligations.SysexParseChecksAndClassifies := by
  have parsed {xs : ByteSeq} {m : Message} {n : Nat} {s : State} (hlen : LenOk s n) (hn : xs.length = n)
      (h : sysexParse xs = .ok m) : Answers (.sysexParse xs) s (okFields [.msg (msgField m)]) :=
    answers_sysexParse_iff.mpr ⟨hn ▸ hlen, m, h, rfl⟩
  refine ⟨fun _ => rfl, fun xs s hlen => ?errors, fun dc s1 s2 p s hlen => ?universal, fun b1 b2 p s hlen => ?extended,
    fun p s hp hlen => ?development, fun a p s h0 hD hE hF hp hlen => ?standard⟩
  case errors =>
    have fails {e : Err} (h) : Answers (.sysexParse xs) s (errResponse e) :=
      answers_sysexParse_error hlen (sysexParse_error_iff.mpr h)
    exact ⟨fun hshort => fails (.inl ⟨hshort, rfl⟩), fun h5 hfirst => fails (.inr (.inl ⟨h5, .inl hfirst, rfl⟩)),
      fun h5 hlast => fails (.inr (.inl ⟨h5, .inr hlast, rfl⟩)),
      fun h5 hfirst hlast hkind => fails (.inr (.inr ⟨h5, hfirst, by rw [h5]; exact hlast, hkind, rfl⟩))⟩
  case universal =>
    have hn (k : Kind) : ([0xF0#8, kindByte k, dc, s1, s2] ++ p ++ [0xF7#8]).length = 6 + p.length := by simp; omega
    exact ⟨parsed hlen (hn .nonRealTime) (sysexParse_universal _ dc s1 s2 p),
      parsed hlen (hn .realTime) (sysexParse_universal _ dc s1 s2 p)⟩
  case extended => exact parsed hlen (by simp; omega) (sysexParse_extended b1 b2 p)
  case development => exact parsed hlen (by simp; omega) (sysexParse_development hp)
  case standard => exact parsed hlen (by simp; omega) (sysexParse_standard h0 hD hE hF hp)

/-- Settles O36: `sysexParse_error_iff` names only the length, byte 0, byte 1 and the last byte. -/
theorem interiorBytesAreNotChecked : Obligations.InteriorBytesAreNotChecked := by
  intro xs ys s st d hlength h0 h1 hlast h
  have same (e : Err) : sysexParse xs = .error e ↔ sysexParse ys = .error e := by
    change elem xs 0 = elem ys 0 at h0
    change elem xs 1 = elem ys 1 at h1
    change elem xs (xs.length - 1) = elem ys (ys.length - 1) at hlast
    rw [sysexParse_error_iff, sysexParse_error_iff, hlast, h0, h1, hlength]
  obtain ⟨hlen, hr⟩ | ⟨hlen, e, he, hr⟩ := answers_sysexParse_failed_cases h
  · exact hr ▸ answers_sysexParse_capacity (hlength ▸ hlen)
  · exact hr ▸ answers_sysexParse_error (hlength ▸ hlen) ((same e).mp he)

/-- Settles O38: O37 gives the frame, and it has fewer than five bytes. -/
theorem shortFramesAreEncodedAndRejected : Obligations.ShortFramesAreEncodedAndRejected := by
  intro f p s he htag hp hlen
  have hid : (idBytes f).length = 1 := by
    simp only [idBytes, htag, if_false]
    split <;> rfl
  have hr : ([0xF0#8] ++ idBytes f ++ p ++ [0xF7#8]).length = 3 + p.length := by
    simp [hid]
    omega
  obtain ⟨-, -, -, manufacturer, -⟩ := sysexEncodeEmitsTheFrame (manufacturerField f p) s
  refine ⟨[0xF0#8] ++ idBytes f ++ p ++ [0xF7#8], manufacturer rfl he (lenOk_mono hlen ?fits), by omega, ?rejected⟩
  case fits =>
    change 2 + (idBytes f).length + p.length ≤ 5
    omega
  case rejected =>
    exact answers_sysexParse_error (lenOk_mono hlen (by omega)) (sysexParse_error_iff.mpr (.inl ⟨by omega, rfl⟩))

/-- Settles O39: the field answered holds the message that was parsed. -/
theorem encodeInvertsParse : Obligations.EncodeInvertsParse := by
  intro xs s f h t ht
  obtain ⟨-, m, hm, rfl⟩ := answers_sysexParse_iff.mp h
  exact answers_sysexEncode_iff.mpr ⟨ht, m, msgOfField_msgField m, sysexEncode_of_sysexParse hm⟩

/-- Settles O40: every other message has a frame of five bytes or more. -/
theorem parseInvertsEncodeOfLongMessages : Obligations.ParseInvertsEncodeOfLongMessages := by
  intro f s r h hlong t ht
  obtain ⟨-, m, hm, hr⟩ := answers_sysexEncode_iff.mp h
  have hlen : 5 ≤ r.length := five_le_length_of_sysexEncode hm hr hlong
  exact ⟨msgField m, answers_sysexParse_iff.mpr ⟨ht, m, sysexParse_of_sysexEncode hr hlen, rfl⟩,
    (msgOfField_msgField m).trans hm.symm⟩

end Sys2Proof.Machine
end

section
/-! SUPPORT. The errors of decoding (Decode.lean, R69, R202, R203). -/

namespace Sys2Proof.Machine

theorem opcodes_eq_codes : opcodes = Op.all.map (fun o => o.code.toNat) := rfl

theorem opOfCode_eq_none_iff (c : Byte) : opOfCode c = none ↔ c.toNat ∉ opcodes := by
  simp [opOfCode, opcodes_eq_codes, BitVec.toNat_inj]

/-- R202: no operand is examined. -/
theorem decode_of_unassigned {q : Request} (h : q.op.toNat ∉ opcodes) : decode q = .error .illegalOp := by
  unfold decode
  rw [(opOfCode_eq_none_iff q.op).mpr h]

/-- The two errors of decoding. -/
theorem decode_error {q : Request} {e : Err} (h : decode q = .error e) : e = .illegalOp ∨ e = .illegalOperand := by
  unfold decode at h
  split at h
  case h_1 => exact .inl (Except.error.inj h).symm
  case h_2 =>
    split at h
    case h_1 => exact .inr (Except.error.inj h).symm
    case h_2 => cases h

/-- Settles O3: an op outside the map does not decode, and `serve` raises the error of `decode`. -/
theorem unassignedOpcodeAnswersIllegalOp : Obligations.UnassignedOpcodeAnswersIllegalOp :=
  fun s _ hop => serves_of_serve (serve_of_error (decode_of_unassigned hop) s)

end Sys2Proof.Machine
end

section
/-! SUPPORT. The form of every response (R61, R70, R206, R217), and that the reserved UnknownKind is in none (R201). -/

namespace Sys2Proof.Machine

/-- R217: OK with results, or the status of an error that some rule raises, without results. -/
def OkOrOneError (r : Response) : Prop :=
  (r.status = 0x00#8 ∧ r.detail = .none ∧ r.results.isSome = true) ∨
    (r.status ∈ [0x01#8, 0x02#8, 0x03#8, 0x80#8, 0x81#8, 0x82#8] ∧ r.results = none)

theorem OkOrOneError.status_ne_unknownKind {r : Response} (h : OkOrOneError r) : r.status ≠ 0x04#8 := by
  obtain ⟨hok, -⟩ | ⟨herr, -⟩ := h
  · rw [hok]
    decide
  · exact fun h4 => absurd (h4 ▸ herr) (by decide)

theorem okOrOneError_okResponse (r : Result) : OkOrOneError (okResponse r) := .inl ⟨rfl, rfl, rfl⟩

theorem okOrOneError_errResponse {e : Err} (h : e ≠ .unknownKind) : OkOrOneError (errResponse e) := by
  refine .inr ⟨?status, rfl⟩
  cases e with
  | unknownKind => exact (h rfl).elim
  | _ => simp [errResponse, errStatus, statusCode]

theorem decode_error_ne_unknownKind {q : Request} {e : Err} (h : decode q = .error e) : e ≠ .unknownKind := by
  obtain rfl | rfl := decode_error h <;> nofun

theorem operation_error_ne_unknownKind {P : Params} {i : Instr} {e : Err} (h : operation P i = .error e)
    (hlegal : operandsLegal P i = true) : e ≠ .unknownKind := by
  obtain rfl | rfl | ⟨_, rfl, -⟩ := operation_error h hlegal <;> nofun

/-- Of the five outcomes of `respond_cases`, the operation's own error alone is not a fixed one. -/
theorem okOrOneError_respond (P : Params) (i : Instr) :
    OkOrOneError (respond P (operandsLegal P i) (operandSeqLengths i) (operation P i)) := by
  obtain ⟨_, hr⟩ | ⟨_, _, hr⟩ | ⟨e, hlegal, _, hop, hr⟩ | ⟨_, _, _, _, _, hr⟩ | ⟨r, _, _, _, _, hr⟩ :=
    respond_cases P (operandsLegal P i) (operandSeqLengths i) (operation P i)
  all_goals rw [hr]
  · exact okOrOneError_errResponse nofun
  · exact okOrOneError_errResponse nofun
  · exact okOrOneError_errResponse (operation_error_ne_unknownKind hop hlegal)
  · exact okOrOneError_errResponse nofun
  · exact okOrOneError_okResponse r

theorem serve_delivers_okOrOneError (q : Request) (s : State) :
    ∃ r, serve q s = .next (deliver r s) ∧ OkOrOneError r := by
  cases hd : decode q with
  | error e => exact ⟨errResponse e, serve_of_error hd s, okOrOneError_errResponse (decode_error_ne_unknownKind hd)⟩
  | ok i => exact ⟨_, (serve_of_decode hd s).trans (exec_eq_respond i s), okOrOneError_respond s.params i⟩

/-- Settles O7: the step serves the request, and `serve` delivers one response of this form. -/
theorem everyRequestGetsExactlyOneResponse : Obligations.EveryRequestGetsExactlyOneResponse := by
  intro s q hreset hcurrent
  obtain ⟨r, hserve, hr⟩ := serve_delivers_okOrOneError q s
  exact ⟨r, serves_of_serve hserve hreset hcurrent, hr⟩

/-- A step adds no response, or one that is OK or an error some rule raises. -/
theorem step_responses_cases {s t : State} (h : step s = .next t) :
    t.responses = s.responses ∨ ∃ r, OkOrOneError r ∧ t.responses = s.responses ++ [r] := by
  obtain ⟨_, hstep⟩ | ⟨q, _, _, hstep⟩ | ⟨_, _, hstep⟩ := step_cases s
  case inl =>
    cases hstep.symm.trans h
    exact .inl (takeReset_responses s)
  case inr.inl =>
    obtain ⟨r, hserve, hr⟩ := serve_delivers_okOrOneError q s
    cases (hstep.trans hserve).symm.trans h
    exact .inr ⟨r, hr, deliver_responses r s⟩
  case inr.inr =>
    cases hstep.symm.trans h
    exact .inl (accept_responses s)

/-- Settles O10: the one response that a step may add has another status. -/
theorem unknownKindIsNeverReturned : Obligations.UnknownKindIsNeverReturned := by
  refine ⟨rfl, fun s t hstep r hmem hstatus => ?_⟩
  obtain hsame | ⟨r', hr', hadded⟩ := step_responses_cases hstep
  · exact hsame ▸ hmem
  · rw [hadded, List.mem_append, List.mem_singleton] at hmem
    obtain hold | rfl := hmem
    · exact hold
    · exact (hr'.status_ne_unknownKind hstatus).elim

end Sys2Proof.Machine
end

section
/-! SUPPORT. Decoding and encoding undo each other (Decode.lean, R60, R63, R68, R69), what is rejected and by which error, and
what a step makes of a request that decodes and of one that does not: O15, O2, O4 and O16. -/

namespace Sys2Proof.Machine

/-! ## The format that each opcode selects -/

theorem op_mem_all (o : Op) : o ∈ Op.all := by cases o <;> decide

theorem operandKinds_eq_formats :
    operandKinds = Op.all.map (fun o => (o.code.toNat, o.format.fields.map Prod.snd)) := rfl

/-- R63, R68: the kinds that a byte selects are those of the format of the operation it is the code of. -/
theorem mem_operandKinds_iff {c : Byte} {ks : List FieldKind} :
    (c.toNat, ks) ∈ operandKinds ↔ ∃ o : Op, c = o.code ∧ ks = o.format.fields.map Prod.snd := by
  simp [operandKinds_eq_formats, op_mem_all, BitVec.toNat_inj, eq_comm]

/-! ## Fields of each kind -/

@[simp] theorem kind_eq_byte_iff {f : Field} : f.kind = some .byte ↔ ∃ b, f = .byte b := by cases f <;> simp [Field.kind]
@[simp] theorem kind_eq_pos_iff {f : Field} : f.kind = some .pos ↔ ∃ p, f = .pos p := by cases f <;> simp [Field.kind]
@[simp] theorem kind_eq_bits_iff {f : Field} : f.kind = some .bits ↔ ∃ xs, f = .bits xs := by cases f <;> simp [Field.kind]
@[simp] theorem kind_eq_seq_iff {f : Field} : f.kind = some .seq ↔ ∃ xs, f = .seq xs := by cases f <;> simp [Field.kind]
@[simp] theorem kind_eq_ident_iff {f : Field} : f.kind = some .ident ↔ ∃ g, f = .ident g := by cases f <;> simp [Field.kind]
@[simp] theorem kind_eq_msg_iff {f : Field} : f.kind = some .msg ↔ ∃ g, f = .msg g := by cases f <;> simp [Field.kind]

/-! ## The operand fields of a format are exactly what is read -/

theorem decodeOperands_operands (i : Instr) : decodeOperands i.op i.operands = some i := by cases i <;> rfl

theorem operands_kinds (i : Instr) : i.operands.map Field.kind = (i.op.format.fields.map Prod.snd).map some := by cases i <;> rfl

/-- R63: fields of the format's kinds are read, whatever their values. -/
theorem exists_decodeOperands_of_kinds {o : Op} {fs : List Field}
    (h : fs.map Field.kind = (o.format.fields.map Prod.snd).map some) : ∃ i, decodeOperands o fs = some i := by
  cases o with
  | bitGet | bitSet | bitClear =>
    obtain ⟨b, p, rfl⟩ : ∃ b p, fs = [.byte b, .pos p] := by simpa [Op.format, Format.fields, List.map_eq_cons_iff] using h
    exact ⟨_, rfl⟩
  | nybbleSplit | bitsOfByte =>
    obtain ⟨b, rfl⟩ : ∃ b, fs = [.byte b] := by simpa [Op.format, Format.fields, List.map_eq_cons_iff] using h
    exact ⟨_, rfl⟩
  | nybbleJoin =>
    obtain ⟨high, low, rfl⟩ : ∃ high low, fs = [.byte high, .byte low] := by
      simpa [Op.format, Format.fields, List.map_eq_cons_iff] using h
    exact ⟨_, rfl⟩
  | bitRangeReplace =>
    obtain ⟨b, lo, hi, v, rfl⟩ : ∃ b lo hi v, fs = [.byte b, .pos lo, .pos hi, .byte v] := by
      simpa [Op.format, Format.fields, List.map_eq_cons_iff] using h
    exact ⟨_, rfl⟩
  | byteOfBits =>
    obtain ⟨xs, rfl⟩ : ∃ xs, fs = [.bits xs] := by simpa [Op.format, Format.fields, List.map_eq_cons_iff] using h
    exact ⟨_, rfl⟩
  | pack7bit | unpack7bit | mfgIdUnpack | sysexParse =>
    obtain ⟨xs, rfl⟩ : ∃ xs, fs = [.seq xs] := by simpa [Op.format, Format.fields, List.map_eq_cons_iff] using h
    exact ⟨_, rfl⟩
  | mfgIdPack =>
    obtain ⟨f, rfl⟩ : ∃ f, fs = [.ident f] := by simpa [Op.format, Format.fields, List.map_eq_cons_iff] using h
    exact ⟨_, rfl⟩
  | sysexEncode =>
    obtain ⟨f, rfl⟩ : ∃ f, fs = [.msg f] := by simpa [Op.format, Format.fields, List.map_eq_cons_iff] using h
    exact ⟨_, rfl⟩

theorem decodeOperands_eq_none_iff {o : Op} {fs : List Field} :
    decodeOperands o fs = none ↔ fs.map Field.kind ≠ (o.format.fields.map Prod.snd).map some := by
  constructor
  · intro hnone hkinds
    obtain ⟨i, hi⟩ := exists_decodeOperands_of_kinds hkinds
    simp [hi] at hnone
  · intro hkinds
    by_contra hsome
    obtain ⟨i, hi⟩ := Option.ne_none_iff_exists'.mp hsome
    obtain ⟨rfl, rfl⟩ := decodeOperands_kinds hi
    exact hkinds (operands_kinds i)

/-! ## The three outcomes of decoding -/

theorem decode_of_operands {o : Op} {fs : List Field} {i : Instr} (h : decodeOperands o fs = some i) :
    decode { op := o.code, operands := fs } = .ok i := by
  simp [decode, (opOfCode_eq_some o.code o).mpr rfl, h]

theorem decode_of_no_operands {o : Op} {fs : List Field} (h : decodeOperands o fs = none) :
    decode { op := o.code, operands := fs } = .error .illegalOperand := by
  simp [decode, (opOfCode_eq_some o.code o).mpr rfl, h]

/-- Every request has an op outside the map, or is an operation's with fields that are read, or with fields that are not. -/
theorem decode_cases (q : Request) :
    (q.op.toNat ∉ opcodes ∧ decode q = .error .illegalOp) ∨
    (∃ o, q.op = o.code ∧ decodeOperands o q.operands = none ∧ decode q = .error .illegalOperand) ∨
    (∃ o i, q.op = o.code ∧ decodeOperands o q.operands = some i ∧ decode q = .ok i) := by
  obtain ⟨c, fs⟩ := q
  cases hop : opOfCode c with
  | none =>
    have := (opOfCode_eq_none_iff c).mp hop
    exact .inl ⟨this, decode_of_unassigned this⟩
  | some o =>
    obtain rfl := (opOfCode_eq_some c o).mp hop
    cases hfs : decodeOperands o fs with
    | none => exact .inr (.inl ⟨o, rfl, hfs, decode_of_no_operands hfs⟩)
    | some i => exact .inr (.inr ⟨o, i, rfl, hfs, decode_of_operands hfs⟩)

theorem decode_eq_ok_iff {q : Request} {i : Instr} : decode q = .ok i ↔ q = encode i := by
  constructor
  · intro h
    obtain ⟨_, hd⟩ | ⟨_, _, _, hd⟩ | ⟨o, i', hop, hfs, hd⟩ := decode_cases q
    · simp [hd] at h
    · simp [hd] at h
    · obtain rfl : i' = i := Except.ok.inj (hd.symm.trans h)
      obtain ⟨rfl, hoperands⟩ := decodeOperands_kinds hfs
      rw [encode, hoperands, ← hop]
  · rintro rfl
    exact decode_of_operands (decodeOperands_operands i)

theorem decode_eq_illegalOp_iff {q : Request} : decode q = .error .illegalOp ↔ q.op.toNat ∉ opcodes := by
  refine ⟨fun h => ?_, decode_of_unassigned⟩
  obtain ⟨hop, _⟩ | ⟨_, _, _, hd⟩ | ⟨_, _, _, _, hd⟩ := decode_cases q
  · exact hop
  · simp [hd] at h
  · simp [hd] at h

theorem decode_eq_illegalOperand_iff {q : Request} :
    decode q = .error .illegalOperand ↔ ∃ ks, (q.op.toNat, ks) ∈ operandKinds ∧ q.operands.map Field.kind ≠ ks.map some := by
  constructor
  · intro h
    obtain ⟨_, hd⟩ | ⟨o, hop, hfs, _⟩ | ⟨_, _, _, _, hd⟩ := decode_cases q
    · simp [hd] at h
    · exact ⟨_, mem_operandKinds_iff.mpr ⟨o, hop, rfl⟩, decodeOperands_eq_none_iff.mp hfs⟩
    · simp [hd] at h
  · rintro ⟨ks, hks, hkinds⟩
    obtain ⟨o, hop, rfl⟩ := mem_operandKinds_iff.mp hks
    obtain ⟨c, fs⟩ := q
    obtain rfl : c = o.code := hop
    exact decode_of_no_operands (decodeOperands_eq_none_iff.mpr hkinds)

/-! ## The statements -/

/-- Settles O15: the three outcomes of `decode_cases`, each with its own condition. -/
theorem decodeInvertsEncodeAndRejectsTheRest : Obligations.DecodeInvertsEncodeAndRejectsTheRest :=
  ⟨fun _ _ => decode_eq_ok_iff, fun _ => decode_eq_illegalOp_iff, fun _ => decode_eq_illegalOperand_iff⟩

/-- Settles O2: the step serves the request, and a request that decodes is executed. -/
theorem stepExecutesTheDecodedRequest : Obligations.StepExecutesTheDecodedRequest :=
  fun s _ _ hreset hcurrent hdecode => (step_of_current hreset hcurrent).trans (serve_of_decode hdecode s)

/-- Settles O4: such a request does not decode, and `serve` raises the error of `decode`. -/
theorem wrongOperandFieldsAnswerIllegalOperand : Obligations.WrongOperandFieldsAnswerIllegalOperand :=
  fun s _ ks hks hkinds => serves_of_serve (serve_of_error (decode_eq_illegalOperand_iff.mpr ⟨ks, hks, hkinds⟩) s)

/-- Settles O16: each of the five is the encoding of its instruction. -/
theorem specRequestsDecode : Obligations.SpecRequestsDecode :=
  ⟨decode_eq_ok_iff.mpr rfl, decode_eq_ok_iff.mpr rfl, decode_eq_ok_iff.mpr rfl, decode_eq_ok_iff.mpr rfl,
    decode_eq_ok_iff.mpr rfl⟩

end Sys2Proof.Machine
end

section
/-! SUPPORT. Every response that an operation or the decoder gives is well-formed (Safety.lean; R61, R64, R66, R67, R163 (d)), and
what every step keeps: O13, O11, O12, O14 and O1. -/

namespace Sys2Proof.Machine

/-! ## Identifiers and messages as they leave -/

theorem idFieldOk_idField (id : Identifier) : idFieldOk (idField id) = encodable id := by simp [idFieldOk]

theorem msgFieldOk_msgField (P : Params) (m : Message) :
    msgFieldOk P (msgField m) = (identifierEncodable (.msg m) && lenFits P (messagePayload m).length) := by
  cases m <;> simp [msgFieldOk, identifierEncodable, messagePayload]

theorem wfBits_map_bitField (bs : BitSeq) : wfBits (bs.map bitField) = true := by
  rw [← bitsOfField_isSome, bitsOfField_map_bitField, Option.isSome_some]

/-! ## Results of each format -/

theorem resultsOk_nyb (P : Params) (b : Byte) : resultsOk P (resultFields (.nyb (highNybble b) (lowNybble b))) = true := by
  simp only [resultFields, resultsOk, highNybble_toNat, lowNybble_toNat, Bool.and_eq_true, decide_eq_true_eq]
  omega

theorem resultsOk_bits (P : Params) (b : Byte) : resultsOk P (resultFields (.bits (bitsOfByte b))) = true := by
  simp [resultFields, resultsOk, wfBits_map_bitField]

theorem resultsOk_seq {P : Params} {xs : ByteSeq} (h : (resultLens (.seq xs)).all (lenFits P) = true) :
    resultsOk P (resultFields (.seq xs)) = true := by
  simpa [resultFields, resultsOk, resultLens] using h

/-- R162: three bytes are consumed for an extended identifier, and one for every other. -/
theorem resultsOk_idn {P : Params} {region : StdIdHighRegion} {xs : ByteSeq} {id : Identifier} {n : Nat}
    (h : mfgIdUnpack region xs = .ok (id, n)) : resultsOk P (resultFields (.idn id n)) = true := by
  have hencodable : encodable id = true := (mfgIdPack_ok (mfgIdUnpack_ok h).1).1
  have hconsumed : n = if (idField id).tag = 1#8 then 3 else 1 := by
    obtain ⟨_, _, _, _, rfl, rfl⟩ | ⟨_, _, rfl, rfl⟩ | ⟨_, _, _, _, rfl, rfl⟩ := mfgIdUnpack_ok_cases h <;> rfl
  simp [resultFields, resultsOk, idFieldOk_idField, hencodable, ← hconsumed]

theorem resultsOk_msg {P : Params} {xs : ByteSeq} {m : Message} (h : sysexParse xs = .ok m)
    (hfits : (resultLens (.msg m)).all (lenFits P) = true) : resultsOk P (resultFields (.msg m)) = true := by
  have hpayload : lenFits P (messagePayload m).length = true := by simpa [resultLens_msg] using hfits
  simp [resultFields, resultsOk, msgFieldOk_msgField, sysexParse_ok_encodable h, hpayload]

/-! ## What the operations with an operand of their own domain return -/

theorem operation_byteOfBits_ok {P : Params} {xs : List Byte} {r : Result} (h : operation P (.byteOfBits xs) = .ok r) :
    ∃ bs, r = .byte (byteOfBits bs) := by
  simp only [operation] at h
  split at h <;> cases h
  exact ⟨_, rfl⟩

theorem operation_mfgIdPack_ok {P : Params} {f : IdField} {r : Result} (h : operation P (.mfgIdPack f) = .ok r) :
    ∃ id bs, idOfField f = some id ∧ mfgIdPack id = .ok bs ∧ r = .seq bs := by
  simp only [operation] at h
  split at h
  · next id hid =>
    obtain ⟨bs, hbs, rfl⟩ := except_map_ok.mp h
    exact ⟨id, bs, hid, hbs, rfl⟩
  · cases h

theorem operation_sysexEncode_ok {P : Params} {f : MsgField} {r : Result} (h : operation P (.sysexEncode f) = .ok r) :
    ∃ m bs, msgOfField f = some m ∧ sysexEncode m = .ok bs ∧ r = .seq bs := by
  simp only [operation] at h
  split at h
  · next m hm =>
    obtain ⟨bs, hbs, rfl⟩ := except_map_ok.mp h
    exact ⟨m, bs, hm, hbs, rfl⟩
  · cases h

/-- R64: a result that is within `MAX_SEQ_LEN` has fields inside their domains. -/
theorem resultsOk_of_operation {P : Params} {i : Instr} {r : Result} (h : operation P i = .ok r)
    (hfits : (resultLens r).all (lenFits P) = true) : resultsOk P (resultFields r) = true := by
  cases i with
  | bitGet | bitSet | bitClear | nybbleJoin | bitRangeReplace => cases h; rfl
  | nybbleSplit b => cases h; exact resultsOk_nyb P b
  | bitsOfByte b => cases h; exact resultsOk_bits P b
  | pack7bit | unpack7bit => cases h; exact resultsOk_seq hfits
  | byteOfBits xs => obtain ⟨bs, rfl⟩ := operation_byteOfBits_ok h; rfl
  | mfgIdPack f => obtain ⟨_, bs, -, -, rfl⟩ := operation_mfgIdPack_ok h; exact resultsOk_seq hfits
  | sysexEncode f => obtain ⟨_, bs, -, -, rfl⟩ := operation_sysexEncode_ok h; exact resultsOk_seq hfits
  | mfgIdUnpack xs => obtain ⟨⟨id, n⟩, hid, rfl⟩ := except_map_ok.mp h; exact resultsOk_idn hid
  | sysexParse xs => obtain ⟨m, hm, rfl⟩ := except_map_ok.mp h; exact resultsOk_msg hm hfits

/-! ## Every response of the block -/

theorem responseOk_okResponse {P : Params} {r : Result} (h : resultsOk P (resultFields r) = true) :
    responseOk P (okResponse r) = true := by
  simp [responseOk, okResponse, statusCode, h]

theorem responseOk_of_decode_error (P : Params) {q : Request} {e : Err} (h : decode q = .error e) :
    responseOk P (errResponse e) = true := by
  obtain rfl | rfl := decode_error h <;> rfl

theorem responseOk_of_operation_error {P : Params} {i : Instr} {e : Err} (h : operation P i = .error e)
    (hlegal : operandsLegal P i = true) : responseOk P (errResponse e) = true := by
  obtain rfl | rfl | ⟨bs, rfl, hbs⟩ := operation_error h hlegal
  · rfl
  · rfl
  · simpa [responseOk, errResponse, errDetail, errStatus, statusCode] using hbs

theorem responseOk_respond (P : Params) (i : Instr) :
    responseOk P (respond P (operandsLegal P i) (operandSeqLengths i) (operation P i)) = true := by
  obtain ⟨_, hr⟩ | ⟨_, _, hr⟩ | ⟨e, hlegal, _, hop, hr⟩ | ⟨_, _, _, _, _, hr⟩ | ⟨r, _, _, hop, hfits, hr⟩ :=
    respond_cases P (operandsLegal P i) (operandSeqLengths i) (operation P i)
  all_goals rw [hr]
  · rfl
  · rfl
  · exact responseOk_of_operation_error hop hlegal
  · rfl
  · exact responseOk_okResponse (resultsOk_of_operation hop hfits)

theorem serve_delivers_responseOk (q : Request) (s : State) :
    ∃ r, serve q s = .next (deliver r s) ∧ responseOk s.params r = true := by
  cases hd : decode q with
  | error e => exact ⟨errResponse e, serve_of_error hd s, responseOk_of_decode_error s.params hd⟩
  | ok i => exact ⟨_, (serve_of_decode hd s).trans (exec_eq_respond i s), responseOk_respond s.params i⟩

/-! ## What every step keeps -/

/-- Every step has a next state, with the same parameters, and with the same responses or a well-formed one more. -/
theorem exists_step_next (s : State) :
    ∃ t, step s = .next t ∧ t.params = s.params ∧
      (t.responses = s.responses ∨ ∃ r, responseOk s.params r = true ∧ t.responses = s.responses ++ [r]) := by
  obtain ⟨_, hstep⟩ | ⟨q, _, _, hstep⟩ | ⟨_, _, hstep⟩ := step_cases s
  case inl => exact ⟨_, hstep, takeReset_params s, .inl (takeReset_responses s)⟩
  case inr.inl =>
    obtain ⟨r, hserve, hr⟩ := serve_delivers_responseOk q s
    exact ⟨_, hstep.trans hserve, deliver_params r s, .inr ⟨r, hr, deliver_responses r s⟩⟩
  case inr.inr => exact ⟨_, hstep, accept_params s, .inl (accept_responses s)⟩

theorem step_keeps {s t : State} (h : step s = .next t) :
    t.params = s.params ∧
      (t.responses = s.responses ∨ ∃ r, responseOk s.params r = true ∧ t.responses = s.responses ++ [r]) := by
  obtain ⟨t', hstep, hkeeps⟩ := exists_step_next s
  cases hstep.symm.trans h
  exact hkeeps

/-! ## The statements -/

/-- Settles O13: the parameters stay, and the one response that a step may add is well-formed. -/
theorem stepKeepsResponsesWellFormed : Obligations.StepKeepsResponsesWellFormed := by
  intro s t hsafe hstep
  obtain ⟨hparams, hresponses⟩ := step_keeps hstep
  rw [safeState, Bool.and_eq_true] at hsafe ⊢
  obtain ⟨hlegal, hold⟩ := hsafe
  rw [hparams]
  refine ⟨hlegal, ?_⟩
  obtain hsame | ⟨r, hr, hadded⟩ := hresponses
  · rw [hsame]
    exact hold
  · rw [hadded, List.all_append, hold]
    simp [hr]

/-- Settles O11: `step_keeps`. -/
theorem noStepChangesAParameter : Obligations.NoStepChangesAParameter := fun _ _ hstep => (step_keeps hstep).1

/-- Settles O12: each of the three cases of a step has a next state. -/
theorem everyStepHasANextState : Obligations.EveryStepHasANextState := fun s =>
  let ⟨t, hstep, _⟩ := exists_step_next s
  ⟨t, hstep⟩

/-- Settles O14: with no bounds the parameters are legal, and there is no response. -/
theorem resetStateIsSafe : Obligations.ResetStateIsSafe := rfl

/-- Settles O1: each field is written out in `State.reset`. -/
theorem resetLeavesNoRequestAndNoResponse : Obligations.ResetLeavesNoRequestAndNoResponse :=
  ⟨rfl, rfl, rfl, rfl, rfl, rfl, rfl, rfl, rfl⟩

end Sys2Proof.Machine
end

section
/-! SUPPORT. Accepting, resetting and runs of the block (R53, R230): O5, O6 and O9. -/

namespace Sys2Proof.Machine

/-- R46: what a request is answered does not depend on the state it is served in, beyond the parameters. -/
theorem serves_of_same_params {q : Request} {s t : State} {r : Response} (hparams : t.params = s.params)
    (hreset : s.resetLine = false) (hcurrent : s.current = some q) (h : Serves q s r) : Serves q t r := by
  obtain ⟨f, hf⟩ := serve_delivers q
  have hserve : serve q s = .next (deliver r s) := (step_of_current hreset hcurrent).symm.trans (h hreset hcurrent)
  obtain rfl : f s.params = r := (next_deliver_inj _ _ s).mp ((hf s).symm.trans hserve)
  exact serves_of_serve (hparams ▸ hf t)

/-- Settles O5: the step of an idle block is `accept`. -/
theorem oldestRequestIsAccepted : Obligations.OldestRequestIsAccepted := by
  intro s hreset hidle
  rw [step_of_idle hreset hidle]
  exact ⟨fun q rest hqueue => by rw [accept_of_cons hqueue], fun hempty => by rw [accept_of_empty hempty]⟩

/-- Settles O6: the step of a reset is `takeReset`, which leaves the block idle, so that O5 says what comes next. -/
theorem resetAbandonsTheRequestInService : Obligations.ResetAbandonsTheRequestInService := by
  refine fun s hreset => ⟨step_of_reset hreset, fun q rest hqueue => ?next, fun q r t hcurrent hparams hserves => ?again⟩
  case next =>
    obtain ⟨accepts, -⟩ := oldestRequestIsAccepted { s with resetLine := false, current := none } rfl rfl
    exact accepts q rest hqueue
  case again => exact serves_of_same_params (s := { s with resetLine := false }) hparams rfl hcurrent hserves

/-- R53: the request at the head of the queue takes two steps, one to accept it and one to serve it (log entry 3). -/
theorem run_serves_head {f : Params → Request → Response} (hf : ∀ (s : State) (q : Request), Serves q s (f s.params q))
    {s : State} {q : Request} {rest : List Request} (n : Nat) (hreset : s.resetLine = false) (hidle : s.current = none)
    (hqueue : s.queue = q :: rest) :
    core.run (n + 2) s = core.run n { s with queue := rest, responses := s.responses ++ [f s.params q] } := by
  obtain ⟨accepts, -⟩ := oldestRequestIsAccepted s hreset hidle
  have serves := hf { s with current := some q, queue := rest } q hreset rfl
  rw [run_succ (accepts q rest hqueue), run_succ serves, ← hidle]

theorem run_serves_queue {f : Params → Request → Response} (hf : ∀ (s : State) (q : Request), Serves q s (f s.params q))
    (qs : List Request) (s : State) (hreset : s.resetLine = false) (hidle : s.current = none) (hqueue : s.queue = qs) :
    core.run (2 * qs.length) s = .next { s with queue := [], responses := s.responses ++ qs.map (f s.params) } := by
  induction qs generalizing s with
  | nil =>
    calc core.run 0 s = .next s := run_zero s
      _ = .next { s with queue := [], responses := s.responses ++ [] } := by rw [List.append_nil, ← hqueue]
  | cons q rest ih =>
    have served := ih { s with queue := rest, responses := s.responses ++ [f s.params q] } hreset hidle rfl
    rw [List.append_assoc] at served
    exact (run_serves_head hf _ hreset hidle hqueue).trans served

/-- Settles O9: by induction on the queue, with the function of O8. -/
theorem queueIsServedInOrder : Obligations.QueueIsServedInOrder := by
  obtain ⟨f, hf⟩ := responseDependsOnTheRequestAlone
  exact ⟨f, hf, fun s hreset hidle => run_serves_queue hf s.queue s hreset hidle rfl⟩

end Sys2Proof.Machine
end

section
/-! SUPPORT. The unpacker under `UNPACK_HIGH_BIT = or` (92_eei_decisions.md D14): O29. -/

namespace Sys2Proof.Machine

/-- D14: under `or`, bits 0..6 of the data byte, and its bit 7 with the index bit ORed in. -/
theorem restoreHighBit_or_getLsbD (bit : Bit) (d : Byte) :
    (∀ k < 7, (restoreHighBit .or bit d).getLsbD k = d.getLsbD k) ∧
      (restoreHighBit .or bit d).getLsbD 7 = (d.getLsbD 7 || bit) := by
  revert bit d
  decide

/-- R141: byte `j` of the result, by its group `j / 7` and its position `j % 7` there. -/
theorem unpack7bit_getElem? (hb : UnpackHighBit) {w : ByteSeq} {j : Nat} (hj : j < (unpack7bit hb w).length) :
    (unpack7bit hb w)[j]? =
      some (restoreHighBit hb ((elem w (8 * (j / 7))).getLsbD (j % 7)) (elem w (8 * (j / 7) + 1 + j % 7))) := by
  have hin : 8 * (j / 7) + 1 + j % 7 < w.length := by rw [unpack7bit_length] at hj; omega
  have hbyte := unpack7bit_data hb (Nat.mod_lt j (by decide)) hin
  rwa [Nat.div_add_mod] at hbyte

/-- Settles O29: the positions of `unpack7bit_getElem?`, with the bits of `or`. -/
theorem unpackOrsTheHighBitUnderTheAlternative : Obligations.UnpackOrsTheHighBitUnderTheAlternative := by
  refine fun w s hor hlen => ⟨unpack7bit .or w, ?answer, unpack7bit_length .or w, fun j hj => ?byte⟩
  case answer => exact answers_unpack7bit_iff.mpr ⟨hlen, by rw [hor]⟩
  case byte => exact ⟨_, unpack7bit_getElem? .or hj, restoreHighBit_or_getLsbD _ _⟩

end Sys2Proof.Machine
end

section
/-! SUPPORT. The errors of an instruction: when each is answered, and in which order (R203 to R205, R207): O41, O42, O43 and O44. -/

namespace Sys2Proof.Machine

/-! ## The statements' words for domains and bounds -/

theorem operandSeqLengths_eq_operandLengths (i : Instr) : operandSeqLengths i = operandLengths i := by cases i <;> rfl

/-- R203: the operands are in their domains exactly where the tags and bit elements are, and `POS_W` carries every position. -/
theorem operandsLegal_iff {i : Instr} {s : State} :
    operandsLegal s.params i = true ↔ i.wellFormed = true ∧ ∀ p ∈ positions i, PosOk s p := by
  cases i <;> simp [operandsLegal, Instr.wellFormed, positions, posFits_iff_posOk, bitsOfField_isSome, idOfField_isSome,
    msgOfField_isSome]

theorem operandsLegal_eq_false_iff {i : Instr} {s : State} :
    operandsLegal s.params i = false ↔ i.wellFormed = false ∨ ∃ p ∈ positions i, ¬ PosOk s p := by
  rw [← Bool.not_eq_true, operandsLegal_iff, not_and_or, Bool.not_eq_true]
  simp only [not_forall, exists_prop]

/-- R204: some operand sequence is above `MAX_SEQ_LEN`. -/
theorem operandSeqLengths_too_long_iff {i : Instr} {s : State} :
    (operandSeqLengths i).all (lenFits s.params) = false ↔ ∃ n ∈ operandLengths i, ¬ LenOk s n := by
  simp [operandSeqLengths_eq_operandLengths, List.all_eq_false, lenFits_iff_lenOk]

theorem lenFits_of_legal {P : Params} (hlegal : P.legal = true) {n : Nat} (hn : n ≤ 8) : lenFits P n = true := by
  simp only [Params.legal, Bool.and_eq_true, Option.all_eq_true, decide_eq_true_eq] at hlegal
  obtain ⟨-, hmax⟩ := hlegal
  exact (lenFits_iff P n).mpr fun m hm => Nat.le_trans hn (hmax m hm)

/-! ## The five ways to answer -/

/-- R207: `respond_cases`, in the words of `Answers`. -/
theorem answers_cases {i : Instr} {s : State} {r : Response} (h : Answers i s r) :
    (operandsLegal s.params i = false ∧ r = errResponse .illegalOperand) ∨
    (operandsLegal s.params i = true ∧ (∃ n ∈ operandLengths i, ¬ LenOk s n) ∧ r = errResponse .capacity) ∨
    (∃ e, operandsLegal s.params i = true ∧ operation s.params i = .error e ∧ r = errResponse e) ∨
    (∃ res, operandsLegal s.params i = true ∧ operation s.params i = .ok res ∧
      (resultLens res).all (lenFits s.params) = false ∧ r = errResponse .capacity) ∨
    (∃ res, operandsLegal s.params i = true ∧ operation s.params i = .ok res ∧ r = okResponse res) := by
  rw [answers_iff_respond] at h
  subst h
  obtain ⟨hlegal, hr⟩ | ⟨hlegal, hlens, hr⟩ | ⟨e, hlegal, _, hop, hr⟩ | ⟨res, hlegal, _, hop, hfits, hr⟩ |
    ⟨res, hlegal, _, hop, _, hr⟩ :=
    respond_cases s.params (operandsLegal s.params i) (operandSeqLengths i) (operation s.params i)
  · exact .inl ⟨hlegal, hr⟩
  · exact .inr (.inl ⟨hlegal, operandSeqLengths_too_long_iff.mp hlens, hr⟩)
  · exact .inr (.inr (.inl ⟨e, hlegal, hop, hr⟩))
  · exact .inr (.inr (.inr (.inl ⟨res, hlegal, hop, hfits, hr⟩)))
  · exact .inr (.inr (.inr (.inr ⟨res, hlegal, hop, hr⟩)))

/-- The block's own two errors are none of an operation's. -/
theorem operation_error_ne_block_error {P : Params} {i : Instr} {e : Err} (h : operation P i = .error e)
    (hlegal : operandsLegal P i = true) :
    errResponse e ≠ errResponse .illegalOperand ∧ errResponse e ≠ errResponse .capacity := by
  obtain rfl | rfl | ⟨bs, rfl, -⟩ := operation_error h hlegal <;> simp [errResponse, errStatus, statusCode]

/-- R203. -/
theorem answers_illegalOperand_iff {i : Instr} {s : State} :
    Answers i s (errResponse .illegalOperand) ↔ operandsLegal s.params i = false := by
  refine ⟨fun h => ?_, answers_illegalOperand⟩
  obtain ⟨hlegal, _⟩ | ⟨_, _, hr⟩ | ⟨e, hlegal, hop, hr⟩ | ⟨_, _, _, _, hr⟩ | ⟨r, _, _, hr⟩ := answers_cases h
  · exact hlegal
  · cases hr
  · exact ((operation_error_ne_block_error hop hlegal).1 hr.symm).elim
  · cases hr
  · cases hr

/-- R204: Capacity says that some operand sequence or some sequence of the result is above `MAX_SEQ_LEN`. -/
theorem exists_not_lenOk_of_answers_capacity {i : Instr} {s : State} (h : Answers i s (errResponse .capacity)) :
    ∃ n, ¬ LenOk s n := by
  obtain ⟨_, hr⟩ | ⟨_, ⟨n, _, hn⟩, _⟩ | ⟨e, hlegal, hop, hr⟩ | ⟨r, _, _, hfits, _⟩ | ⟨r, _, _, hr⟩ := answers_cases h
  · cases hr
  · exact ⟨n, hn⟩
  · exact ((operation_error_ne_block_error hop hlegal).2 hr.symm).elim
  · obtain ⟨n, _, hn⟩ := List.all_eq_false.mp hfits
    exact ⟨n, by rwa [lenFits_iff_lenOk] at hn⟩
  · cases hr

/-! ## Capacity for the result -/

theorem answers_result_too_long {i : Instr} {s : State} {n : Nat} {r : ByteSeq} (hlegal : operandsLegal s.params i = true)
    (hin : operandSeqLengths i = [n]) (hn : LenOk s n) (hop : operation s.params i = .ok (.seq r)) (hr : ¬ LenOk s r.length) :
    Answers i s (errResponse .capacity) := by
  rw [← lenFits_iff_lenOk] at hn hr
  rw [answers_iff_respond, hlegal, hin, hop, respond_too_long _ (by simpa using hn) (by simpa [resultLens] using hr)]

theorem answers_pack7bit_too_long {xs : ByteSeq} {s : State} (hlen : LenOk s xs.length)
    (hlong : ¬ LenOk s (xs.length + (xs.length + 6) / 7)) : Answers (.pack7bit xs) s (errResponse .capacity) :=
  answers_result_too_long rfl rfl hlen rfl (by rwa [pack7bit_length])

theorem answers_sysexEncode_too_long {f : MsgField} {s : State} {m : Message} {r : ByteSeq} (hm : msgOfField f = some m)
    (hr : sysexEncode m = .ok r) (hlen : LenOk s f.payload.length) (hlong : ¬ LenOk s r.length) :
    Answers (.sysexEncode f) s (errResponse .capacity) :=
  answers_result_too_long (by simp [operandsLegal, hm]) rfl hlen (by simp [operation, hm, hr, Except.map]) hlong

/-- R185, R204: the frame of a universal message has six bytes more than its payload. -/
theorem answers_sysexEncode_universal_too_long {f : MsgField} {s : State} (htag : f.tag.toNat ≤ 1)
    (hlen : LenOk s f.payload.length) (hlong : ¬ LenOk s (6 + f.payload.length)) :
    Answers (.sysexEncode f) s (errResponse .capacity) := by
  have hframe (k : Kind) :
      ([0xF0#8, kindByte k, f.dc, f.s1, f.s2] ++ f.payload ++ [0xF7#8]).length = 6 + f.payload.length := by simp; omega
  obtain h0 | h1 : f.tag = 0#8 ∨ f.tag = 1#8 := by simpa [tag_le_one] using decide_eq_true htag
  · exact answers_sysexEncode_too_long (msgOfField_eq_some_iff.mpr (.inl ⟨h0, rfl⟩)) rfl hlen (by rwa [hframe])
  · exact answers_sysexEncode_too_long (msgOfField_eq_some_iff.mpr (.inr (.inl ⟨h1, rfl⟩))) rfl hlen (by rwa [hframe])

/-- R185, R204: the frame of a manufacturer's message has two bytes more than its identifier and payload. -/
theorem answers_sysexEncode_manufacturer_too_long {f : MsgField} {s : State} (htag : f.tag = 2#8) (he : EncodableField f.id)
    (hlen : LenOk s f.payload.length) (hlong : ¬ LenOk s (2 + (idBytes f.id).length + f.payload.length)) :
    Answers (.sysexEncode f) s (errResponse .capacity) := by
  obtain ⟨id, hid⟩ := exists_idOfField_of_encodableField he
  have hframe : ([0xF0#8] ++ idBytes f.id ++ f.payload ++ [0xF7#8]).length = 2 + (idBytes f.id).length + f.payload.length := by
    simp only [List.length_append, List.length_singleton]
    omega
  exact answers_sysexEncode_too_long (msgOfField_eq_some_iff.mpr (.inr (.inr ⟨htag, id, hid, rfl⟩)))
    (sysexEncode_manufacturerSpecific (mfgIdPack_of_encodableField hid he) _) hlen (by rwa [hframe])

/-! ## The statuses that each operation's row of the table allows (R205) -/

theorem ok_mem_allowedStatuses (i : Instr) : 0x00#8 ∈ allowedStatuses i := by cases i <;> simp [allowedStatuses]

theorem illegalOperand_mem_allowedStatuses (i : Instr) : 0x81#8 ∈ allowedStatuses i := by cases i <;> simp [allowedStatuses]

/-- The operations with an operand sequence are those that can answer Capacity. -/
theorem capacity_mem_allowedStatuses {i : Instr} (h : operandLengths i ≠ []) : 0x82#8 ∈ allowedStatuses i := by
  cases i <;> simp_all [operandLengths, allowedStatuses]

/-- R205: with no operand sequence, a result of at most eight elements is within every legal `MAX_SEQ_LEN`. -/
theorem resultLens_fit_of_no_operand_seq {P : Params} (hlegal : P.legal = true) {i : Instr} {r : Result}
    (hop : operation P i = .ok r) (h : operandLengths i = []) : (resultLens r).all (lenFits P) = true := by
  have fits {n : Nat} (hn : n ≤ 8) := lenFits_of_legal hlegal hn
  cases i with
  | bitGet | bitSet | bitClear | nybbleSplit | nybbleJoin | bitRangeReplace => cases hop; rfl
  | bitsOfByte b => cases hop; simp [resultLens, fits]
  | mfgIdPack f =>
    obtain ⟨_, bs, -, hbs, rfl⟩ := operation_mfgIdPack_ok hop
    obtain ⟨-, -, hle⟩ := mfgIdPack_ok hbs
    simpa [resultLens] using fits (Nat.le_trans hle (by decide))
  | _ => cases h

theorem operation_error_mem_allowedStatuses {P : Params} {i : Instr} {e : Err} (hop : operation P i = .error e)
    (hlegal : operandsLegal P i = true) : (errResponse e).status ∈ allowedStatuses i := by
  cases i with
  | byteOfBits xs =>
    obtain ⟨bs, hbs⟩ := Option.isSome_iff_exists.mp hlegal
    simp [operation, hbs] at hop
  | mfgIdPack f =>
    obtain ⟨id, hid⟩ := Option.isSome_iff_exists.mp hlegal
    simp only [operation, hid, except_map_error] at hop
    obtain ⟨bs, rfl, -⟩ := mfgIdPack_error hop
    simp [errResponse, errStatus, statusCode, allowedStatuses]
  | mfgIdUnpack xs =>
    obtain rfl | ⟨a, rfl⟩ := mfgIdUnpack_error (except_map_error.mp hop) <;>
      simp [errResponse, errStatus, statusCode, allowedStatuses]
  | sysexParse xs =>
    obtain rfl | rfl := sysexParse_error (except_map_error.mp hop) <;>
      simp [errResponse, errStatus, statusCode, allowedStatuses]
  | sysexEncode f =>
    obtain ⟨m, hm⟩ := Option.isSome_iff_exists.mp hlegal
    simp only [operation, hm, except_map_error] at hop
    obtain ⟨bs, rfl, -⟩ := sysexEncode_error hop
    simp [errResponse, errStatus, statusCode, allowedStatuses]
  | _ => cases hop

/-! ## The statements -/

/-- Settles O41: `operandsLegal` is the condition, and no other outcome has this response. -/
theorem illegalOperandExactlyOutsideTheDomain : Obligations.IllegalOperandExactlyOutsideTheDomain :=
  fun _ _ => answers_illegalOperand_iff.trans operandsLegal_eq_false_iff

/-- Settles O42: of a sequence that goes in, of the three that come out, and of OK and of no bound. -/
theorem capacityForSequencesAboveTheBound : Obligations.CapacityForSequencesAboveTheBound := by
  refine ⟨fun i s hwf hpos hlong => ?operand, fun _ _ => answers_pack7bit_too_long,
    fun _ _ => answers_sysexEncode_universal_too_long, fun _ _ => answers_sysexEncode_manufacturer_too_long,
    fun i s fs _ h xs hxs => ?ok, fun i s hnone h => ?unbounded⟩
  case operand => exact answers_capacity (operandsLegal_iff.mpr ⟨hwf, hpos⟩) (operandSeqLengths_too_long_iff.mpr hlong)
  case ok =>
    obtain ⟨-, -, r, -, hfits, rfl⟩ := answers_okFields_iff.mp h
    cases r with
    | seq r =>
      obtain rfl : xs = r := by simpa [resultFields] using hxs
      simpa [resultLens, lenFits_iff_lenOk] using hfits
    | _ => simp [resultFields] at hxs
  case unbounded =>
    obtain ⟨n, hn⟩ := exists_not_lenOk_of_answers_capacity h
    exact hn fun m hm => by simp [hnone] at hm

/-- Settles O43: of each of the five ways to answer, that its status stands in the instruction's row. -/
theorem eachOperationReturnsOnlyItsStatuses : Obligations.EachOperationReturnsOnlyItsStatuses := by
  intro i s r hparams h
  obtain ⟨_, rfl⟩ | ⟨_, ⟨n, hn, _⟩, rfl⟩ | ⟨e, hlegal, hop, rfl⟩ | ⟨res, _, hop, hlong, rfl⟩ | ⟨res, _, _, rfl⟩ := answers_cases h
  · exact illegalOperand_mem_allowedStatuses i
  · exact capacity_mem_allowedStatuses (List.ne_nil_of_mem hn)
  · exact operation_error_mem_allowedStatuses hop hlegal
  · refine capacity_mem_allowedStatuses fun hnil => ?_
    simp [resultLens_fit_of_no_operand_seq hparams hop hnil] at hlong
  · exact ok_mem_allowedStatuses i

/-- Settles O44: each clause is what O3, O41, O42 or the operation's own statement says of the first error that applies. -/
theorem errorsAreReportedInTheirOrder : Obligations.ErrorsAreReportedInTheirOrder := by
  obtain ⟨operand, packed, universal, manufacturer, -, -⟩ := capacityForSequencesAboveTheBound
  obtain ⟨-, unpackNil, unpack⟩ := identifierUnpackClassifiesTheLeadByte
  obtain ⟨-, parse, -⟩ := sysexParseChecksAndClassifies
  refine ⟨unassignedOpcodeAnswersIllegalOp, fun i s => (illegalOperandExactlyOutsideTheDomain i s).mpr, operand,
    fun xs s hlen => ?parse, unpackNil, fun rest s hlen hshort => ?unpack, fun f s htag hid he hlen => ?encode,
    manufacturer, universal, packed⟩
  case parse =>
    obtain ⟨short, first, last, kind⟩ := parse xs s hlen
    exact ⟨short, fun h5 hends => hends.elim (first h5) (last h5), kind⟩
  case unpack =>
    obtain ⟨short, -⟩ := unpack 0x00#8 rest s hlen
    exact short rfl hshort
  case encode =>
    obtain ⟨-, -, -, -, refused, -⟩ := sysexEncodeEmitsTheFrame f s
    exact refused htag hid he hlen

end Sys2Proof.Machine
end

section
/-! SUPPORT. What the operands of a request script stand for (Machine/Script.lean, R80), and what a condition compares (R84): O50
and O49. -/

namespace Sys2Proof.Machine

/-! ## One equation for each form of operand -/

theorem evalArg_byte_iff {h : HostState} {a : ByteArg} {b : Byte} :
    evalArg h (.byte a) = .ok (.byte b) ↔ evalByte h a = .ok b := by simp [evalArg, except_map_ok]

theorem evalArg_seq_iff {h : HostState} {a : SeqArg} {xs : ByteSeq} :
    evalArg h (.seq a) = .ok (.seq xs) ↔ evalSeq h a = .ok xs := by simp [evalArg, except_map_ok]

theorem evalArg_ident_iff {h : HostState} {a : IdArg} {f : IdField} :
    evalArg h (.ident a) = .ok (.ident f) ↔ evalId h a = .ok f := by simp [evalArg, except_map_ok]

theorem evalArg_msg_iff {h : HostState} {a : MsgArg} {f : MsgField} :
    evalArg h (.msg a) = .ok (.msg f) ↔ evalMsg h a = .ok f := by simp [evalArg, except_map_ok]

theorem evalBytes_cons {h : HostState} {a : ByteArg} {as : List ByteArg} {b : Byte} {bs : ByteSeq} (ha : evalByte h a = .ok b)
    (has : evalBytes h as = .ok bs) : evalBytes h (a :: as) = .ok (b :: bs) := by simp [evalBytes, ha, has]

/-- R80: the bytes of a sequence literal are the values of its elements, in their order. -/
theorem evalBytes_of_forall₂ {h : HostState} {as : List ByteArg} {bs : ByteSeq}
    (hvals : List.Forall₂ (fun a b => evalByte h a = .ok b) as bs) : evalBytes h as = .ok bs := by
  induction hvals with
  | nil => rfl
  | cons ha _ ih => exact evalBytes_cons ha ih

theorem evalId_extended {h : HostState} {a0 a1 a2 : ByteArg} {b0 b1 b2 : Byte} (h0 : evalByte h a0 = .ok b0)
    (h1 : evalByte h a1 = .ok b1) (h2 : evalByte h a2 = .ok b2) :
    evalId h (.extended a0 a1 a2) = .ok (idField (.extended b0 b1 b2)) := by simp [evalId, h0, h1, h2]

theorem evalMsg_universal {h : HostState} {a0 a1 a2 : ByteArg} {b0 b1 b2 : Byte} {p : SeqArg} {xs : ByteSeq} (k : Kind)
    (h0 : evalByte h a0 = .ok b0) (h1 : evalByte h a1 = .ok b1) (h2 : evalByte h a2 = .ok b2) (hp : evalSeq h p = .ok xs) :
    evalMsg h (.universal k a0 a1 a2 p) = .ok (universalField (kindTag k) b0 b1 b2 xs) := by
  have hheader : evalBytes h [a0, a1, a2] = .ok [b0, b1, b2] := evalBytes_cons h0 (evalBytes_cons h1 (evalBytes_cons h2 rfl))
  simp only [evalMsg, hheader, hp]
  rfl

theorem evalMsg_manufacturerSpecific {h : HostState} {a : IdArg} {f : IdField} {p : SeqArg} {xs : ByteSeq}
    (ha : evalId h a = .ok f) (hp : evalSeq h p = .ok xs) :
    evalMsg h (.manufacturerSpecific a p) = .ok (manufacturerField f xs) := by
  simp only [evalMsg, ha, hp]
  rfl

/-! ## Reading a bound response -/

theorem readPath_of_lookup {h : HostState} {p : Path} {v : HostVal} {f : Field} (hv : h.vars.lookup p.var = some v)
    (hf : readVal v p.fields = some f) : readPath h p = .ok f := by simp [readPath, hv, hf]

theorem readVal_status (fmt : ResFormat) (r : Response) : readVal (.response fmt r) ["status"] = some (.byte r.status) := rfl

theorem readVal_detail (fmt : ResFormat) (r : Response) : readVal (.response fmt r) ["detail"] = detailField r.detail := by
  simp [readVal, subFields]

theorem readVal_result (fmt : ResFormat) (r : Response) {n : String} (hstatus : n ≠ "status") (hdetail : n ≠ "detail") :
    readVal (.response fmt r) [n] = resultField fmt r n := by
  simp [readVal, subFields, hstatus, hdetail]

/-- R64: the fields of each format have names of their own, none of them that of another part of a response. -/
theorem resultFormat_names (fmt : ResFormat) :
    (fmt.fields.map Prod.fst).Nodup ∧ "status" ∉ fmt.fields.map Prod.fst ∧ "detail" ∉ fmt.fields.map Prod.fst := by
  cases fmt <;> decide

/-- With names of their own, the value at a name's position is the one that is found. -/
theorem lookup_zip_of_getElem? {ns : List String} {fs : List Field} {i : Nat} {n : String} {f : Field} (hnodup : ns.Nodup)
    (hn : ns[i]? = some n) (hf : fs[i]? = some f) : (ns.zip fs).lookup n = some f := by
  induction ns generalizing fs i with
  | nil => simp at hn
  | cons m ns ih =>
    obtain ⟨hm, hnodup⟩ := List.nodup_cons.mp hnodup
    match fs, i with
    | [], _ => simp at hf
    | g :: fs, 0 =>
      simp only [List.getElem?_cons_zero, Option.some.injEq] at hn hf
      simp [hn, hf]
    | g :: fs, i + 1 =>
      rw [List.getElem?_cons_succ] at hn hf
      have hne : (n == m) = false := beq_false_of_ne fun h => hm (h ▸ List.mem_of_getElem? hn)
      rw [List.zip_cons_cons, List.lookup_cons, hne]
      exact ih hnodup hn hf

theorem resultField_of_getElem? {fmt : ResFormat} {r : Response} {fs : List Field} {i : Nat} {n : String} {k : FieldKind}
    {f : Field} (hr : r.results = some fs) (hn : fmt.fields[i]? = some (n, k)) (hf : fs[i]? = some f) :
    resultField fmt r n = some f := by
  obtain ⟨hnodup, -, -⟩ := resultFormat_names fmt
  rw [resultField, hr]
  exact lookup_zip_of_getElem? hnodup (by simp [hn]) hf

theorem readVal_result_of_getElem? {fmt : ResFormat} {r : Response} {fs : List Field} {i : Nat} {n : String} {k : FieldKind}
    {f : Field} (hr : r.results = some fs) (hn : fmt.fields[i]? = some (n, k)) (hf : fs[i]? = some f) :
    readVal (.response fmt r) [n] = some f := by
  obtain ⟨-, hstatus, hdetail⟩ := resultFormat_names fmt
  have hmem : n ∈ fmt.fields.map Prod.fst := List.mem_map_of_mem (f := Prod.fst) (List.mem_of_getElem? hn)
  rw [readVal_result fmt r (ne_of_mem_of_not_mem hmem hstatus) (ne_of_mem_of_not_mem hmem hdetail)]
  exact resultField_of_getElem? hr hn hf

/-! ## Conditions -/

theorem evalCond_eq {h : HostState} {lhs : Path} {f : Field} (hlhs : readPath h lhs = .ok f) (eq : Bool) (rhs : CondArg) :
    evalCond h lhs eq rhs = (condEq h f rhs).map (fun b => b == eq) := by simp [evalCond, hlhs]

theorem evalCond_true {h : HostState} {lhs : Path} {f : Field} (hlhs : readPath h lhs = .ok f) (rhs : CondArg) :
    evalCond h lhs true rhs = condEq h f rhs := by
  rw [evalCond_eq hlhs]
  cases condEq h f rhs <;> simp [Except.map]

theorem evalCond_false {h : HostState} {lhs : Path} {f : Field} (hlhs : readPath h lhs = .ok f) {rhs : CondArg} {c : Bool}
    (hc : condEq h f rhs = .ok c) : evalCond h lhs false rhs = .ok (!c) := by
  rw [evalCond_eq hlhs, hc]
  cases c <;> rfl

/-! ## The statements -/

/-- Settles O50: each form of operand by its equation, and each part of a response by its name. -/
theorem operandsHaveTheirValues : Obligations.OperandsHaveTheirValues := by
  intro h
  simp only [evalArg_byte_iff, evalArg_seq_iff, evalArg_ident_iff, evalArg_msg_iff]
  refine ⟨fun _ => rfl, fun _ => rfl, fun _ => rfl, fun as bs hlength hvals => ?literal, fun a b hb => ?standard,
    fun _ _ _ _ _ _ => evalId_extended, rfl, fun _ _ _ _ _ _ _ _ h0 h1 h2 hp => ?universal,
    fun _ _ _ _ => evalMsg_manufacturerSpecific, fun p b hp => ?byte, fun p xs hp => ?seq, fun p xs hp => ?bits,
    fun p f hp => ?ident, fun p f hp => ?msg, fun v fmt r hv => ?response⟩
  case literal =>
    exact evalBytes_of_forall₂ (List.forall₂_iff_get.mpr ⟨hlength, fun i ha hb => hvals i _ _ (by simp [ha]) (by simp [hb])⟩)
  case standard =>
    simp only [evalId, hb]
    rfl
  case universal => exact ⟨evalMsg_universal .nonRealTime h0 h1 h2 hp, evalMsg_universal .realTime h0 h1 h2 hp⟩
  case byte => simp [evalByte, hp]
  case seq => simp [evalSeq, hp]
  case bits => simp [evalArg, hp]
  case ident => simp [evalId, hp]
  case msg => simp [evalMsg, hp]
  case response =>
    exact ⟨readPath_of_lookup hv (readVal_status fmt r),
      fun n hn => readPath_of_lookup hv (by rw [readVal_detail, hn, detailField]),
      fun xs hxs => readPath_of_lookup hv (by rw [readVal_detail, hxs, detailField]),
      fun _ _ _ _ _ hr hn hf => readPath_of_lookup hv (readVal_result_of_getElem? hr hn hf)⟩

/-- Settles O49: `==` is `condEq`, clause by clause, and `!=` its negation. -/
theorem conditionsCompareFields : Obligations.ConditionsCompareFields := by
  intro h lhs f hlhs
  simp only [evalCond_true hlhs]
  refine ⟨fun _ => rfl, fun _ => rfl, ?byte, ?nat, ?pos, fun n hbyte hnat hpos => ?other, fun a g ha => ?operand,
    fun p g hp => ?field, fun _ _ => evalCond_false hlhs⟩
  case byte => rintro n b rfl; rfl
  case nat => rintro n m rfl; rfl
  case pos => rintro n p rfl; rfl
  case other =>
    cases f with
    | byte b => exact (hbyte b rfl).elim
    | nat m => exact (hnat m rfl).elim
    | pos p => exact (hpos p rfl).elim
    | _ => rfl
  case operand => simp [condEq, ha, Except.map]
  case field => simp [condEq, hp, Except.map]

end Sys2Proof.Machine
end

section
/-! SUPPORT. The steps of a request script (Machine/Script.lean, R80, R81, R84): O45, O46, O47 and O48. -/

namespace Sys2Proof.Machine

/-! ## What a step of a script can be -/

theorem scriptStep_line {script : List Line} {y : System} {l : Line} (hwait : y.host.waiting = none)
    (hline : script[y.host.line]? = some l) : scriptStep script y = execLine script l y := by
  simp [scriptStep, hwait, hline]

theorem scriptStep_past_end {script : List Line} {y : System} (hwait : y.host.waiting = none)
    (hline : script[y.host.line]? = none) : scriptStep script y = .halted := by
  simp [scriptStep, hwait, hline]

/-- Log entry 15: the response the host waits for is taken in one step, the oldest first. -/
theorem scriptStep_receive {script : List Line} {h h' : HostState} {b : State} {w : Waiting} {r : Response}
    {rest : List Response} (hwait : h.waiting = some w) (hresponses : b.responses = r :: rest) (hreceive : receive w r h = .ok h') :
    scriptStep script { host := h, block := b } = .next { host := h', block := { b with responses := rest } } := by
  simp [scriptStep, hwait, takeResponse, hresponses, hreceive]

theorem scriptStep_wait {script : List Line} {y : System} {t : State} (hwait : y.host.waiting.isSome = true)
    (hresponses : y.block.responses = []) (hstep : step y.block = .next t) :
    scriptStep script y = .next { host := y.host, block := t } := by
  obtain ⟨w, hw⟩ := Option.isSome_iff_exists.mp hwait
  simp [scriptStep, hw, takeResponse, hresponses, hstep]

/-! ## Host lines -/

theorem execLine_branch_not_taken {script : List Line} {y : System} {lhs : Path} {eq : Bool} {rhs : CondArg} {l : String}
    (hcond : evalCond y.host lhs eq rhs = .ok false) :
    execLine script (.branch lhs eq rhs l) y = .next { y with host := advance y.host } := by
  simp [execLine, hcond]

theorem execLine_branch_taken {script : List Line} {y : System} {lhs : Path} {eq : Bool} {rhs : CondArg} {l : String} {n : Nat}
    (hcond : evalCond y.host lhs eq rhs = .ok true) (hlabel : labelLine script l = some n) :
    execLine script (.branch lhs eq rhs l) y = .next { y with host := { y.host with line := n } } := by
  simp [execLine, hcond, hlabel]

/-- R84: "Host lines are executed by the host, not the block": they move the host's position alone. -/
theorem execLine_branch_keeps {script : List Line} {y y' : System} {lhs : Path} {eq : Bool} {rhs : CondArg} {l : String}
    (h : execLine script (.branch lhs eq rhs l) y = .next y') : y'.block = y.block ∧ y'.host.vars = y.host.vars := by
  simp only [execLine] at h
  split at h
  · cases h
  · cases h
    exact ⟨rfl, rfl⟩
  · split at h <;> cases h
    exact ⟨rfl, rfl⟩

/-! ## Request lines -/

theorem issueLine_ok {w : Waiting} {op : Op} {args : List Arg} {y : System} {fs : List Field}
    (hargs : evalArgs y.host args = .ok fs) :
    issueLine w op args y =
      .next { host := { advance y.host with waiting := some w }, block := issue { op := op.code, operands := fs } y.block } := by
  simp [issueLine, hargs]

/-- R63, R80: a field is of its operand's type. -/
theorem kind_of_evalArg {h : HostState} {a : Arg} {f : Field} (ha : evalArg h a = .ok f) : f.kind = some (argKind a) := by
  cases a with
  | byte a | seq a | ident a | msg a =>
    obtain ⟨_, -, rfl⟩ := except_map_ok.mp ha
    rfl
  | pos p | bits xs => cases ha; rfl
  | bitsRef p =>
    simp only [evalArg] at ha
    split at ha <;> cases ha
    rfl

/-- R80: the fields of a line are of the types of its operands, in their order. -/
theorem kinds_of_evalArgs {h : HostState} {args : List Arg} {fs : List Field} (hargs : evalArgs h args = .ok fs) :
    fs.map Field.kind = (args.map argKind).map some := by
  obtain ⟨hlength, hvals⟩ := evalArgs_ok hargs
  refine List.ext_getElem (by simp [hlength]) fun i hfs has => ?_
  rw [List.length_map, List.length_map] at has
  obtain ⟨f, hf, ha⟩ := hvals i args[i] (List.getElem?_eq_getElem has)
  obtain ⟨_, rfl⟩ := List.getElem?_eq_some_iff.mp hf
  simpa using kind_of_evalArg ha

/-! ## Binding a variable -/

theorem lookup_filter_ne {v n : String} (hv : v ≠ n) (vars : List (String × HostVal)) :
    (vars.filter (fun x => x.1 != n)).lookup v = vars.lookup v := by
  induction vars with
  | nil => rfl
  | cons x vars ih =>
    obtain ⟨m, val⟩ := x
    by_cases hm : m = n
    · subst hm
      simpa [List.lookup_cons, beq_false_of_ne hv] using ih
    · simp [hm, List.lookup_cons, ih]

@[simp] theorem bindVar_line (n : String) (v : HostVal) (h : HostState) : (bindVar n v h).line = h.line := rfl

theorem bindVar_lookup_same (n : String) (v : HostVal) (h : HostState) : (bindVar n v h).vars.lookup n = some v := by
  simp [bindVar]

theorem bindVar_lookup_other {v n : String} (hv : v ≠ n) (val : HostVal) (h : HostState) :
    (bindVar n val h).vars.lookup v = h.vars.lookup v := by
  simp [bindVar, List.lookup_cons, beq_false_of_ne hv, lookup_filter_ne hv]

theorem receive_field {w : Waiting} {r : Response} {n : String} {f : Field} (hw : w.field = some n)
    (hf : resultField w.fmt r n = some f) (h : HostState) :
    receive w r h = .ok { bindVar w.bind (.value f) h with waiting := none } := by
  simp [receive, hw, hf]

/-! ## The statements -/

/-- Settles O45: each line by its equation. -/
theorem hostLinesLeaveTheBlock : Obligations.HostLinesLeaveTheBlock := by
  refine fun script y hwait => ⟨fun l hline => scriptStep_line hwait hline,
    fun lhs eq rhs l hline => ⟨fun hcond => ?notTaken, fun hcond hlabel => ?taken⟩, fun hline => scriptStep_line hwait hline,
    scriptStep_past_end hwait, fun y' l hline hrequest hpseudo hstep => ?frame⟩
  case notTaken => exact (scriptStep_line hwait hline).trans (execLine_branch_not_taken hcond)
  case taken =>
    obtain ⟨n, hfound, hn⟩ := labelLine_of_mem hlabel
    exact ⟨n, hn, (scriptStep_line hwait hline).trans (execLine_branch_taken hcond hfound)⟩
  case frame =>
    rw [scriptStep_line hwait hline] at hstep
    cases l with
    | request b op args => exact (hrequest b op args rfl).elim
    | pseudo b p args => exact (hpseudo b p args rfl).elim
    | branch lhs eq rhs l => exact execLine_branch_keeps hstep
    | label l => cases hstep; exact ⟨rfl, rfl⟩
    | halt => cases hstep

/-- Settles O46: the line is `issueLine`, its fields decode by their kinds, and `receive` binds the whole response. -/
theorem requestLineIssuesOneRequestAndBindsTheResponse : Obligations.RequestLineIssuesOneRequestAndBindsTheResponse := by
  intro script y b op args fs hwait hline hargs
  obtain ⟨hlength, hvals⟩ := evalArgs_ok hargs
  refine ⟨hlength, fun i a hi => ?value, fun hkinds => ?decodes,
    { advance y.host with waiting := some { bind := b, fmt := op.resFormat, field := none } }, rfl, rfl, rfl,
    (scriptStep_line hwait hline).trans (issueLine_ok hargs), fun blk r rest hresponses => ?binds⟩
  case value =>
    obtain ⟨f, hf, ha⟩ := hvals i a hi
    exact ⟨f, hf, ha, kind_of_evalArg ha⟩
  case decodes =>
    obtain ⟨i, hi⟩ := exists_decodeOperands_of_kinds (hkinds ▸ kinds_of_evalArgs hargs)
    obtain ⟨hop, hoperands⟩ := decodeOperands_kinds hi
    exact ⟨i, decode_of_operands hi, hop, hoperands⟩
  case binds =>
    exact ⟨_, scriptStep_receive rfl hresponses rfl, rfl, rfl, bindVar_lookup_same _ _ _,
      fun v hv => bindVar_lookup_other hv _ _⟩

/-- Settles O47: the line is `issueLine` of the expansion, and `receive` binds the field that it names. -/
theorem pseudoInstructionsExpandToOneRequest : Obligations.PseudoInstructionsExpandToOneRequest := by
  intro script y b p args fs code hwait hline hargs hcode
  obtain rfl : code = p.op.code := by
    cases p <;> simpa [Pseudo.op, Op.code] using hcode
  refine ⟨_, (scriptStep_line hwait hline).trans (issueLine_ok hargs), fun blk r rest x y' hresponses hresults => ?_⟩
  have hfield : resultField p.op.resFormat r p.field = some (.byte (if p = .lowNybble then y' else x)) := by
    cases p with
    | isBitSet | byteFromNybbles | highNybble => exact resultField_of_getElem? (i := 0) hresults rfl rfl
    | lowNybble => exact resultField_of_getElem? (i := 1) hresults rfl rfl
  exact ⟨_, scriptStep_receive rfl hresponses (receive_field rfl hfield _), rfl, bindVar_lookup_same _ _ _⟩

/-- Settles O48: `scriptStep_wait`. -/
theorem hostWaitsForTheResponse : Obligations.HostWaitsForTheResponse := fun _ _ _ => scriptStep_wait

end Sys2Proof.Machine
end
